-- ==== Sys2Proof/Word.lean ====
section
/-!
DEFINITION. Words: the bit-vector types of the machine (spec/00_scope.md R5, R6). All values are unsigned (R6).
-/

namespace Sys2Proof

/-- A byte: a V register, a timer, a memory cell, the immediate NN (00_scope.md R5). -/
abbrev Byte := BitVec 8

/-- A 16-bit value: an instruction word, pc, I, a stack entry (00_scope.md R5). -/
abbrev Word := BitVec 16

/-- One hexadecimal digit of an instruction word, and the immediate N (30_encoding.md R91). -/
abbrev Nibble := BitVec 4

/-- The 12-bit immediate NNN, a byte address (30_encoding.md R92). -/
abbrev Addr := BitVec 12

/-- A general register's number, 0..15; number 15 is VF (10_state.md R21). -/
abbrev Reg := Fin 16

/-- A key's index, 0x0..0xF (10_state.md R29). -/
abbrev Key := Fin 16

end Sys2Proof
end

