-- ==== Sys2Proof/Syntax.lean ====
section
/-!
DEFINITION. Syntax: the 34 instructions of spec/30_encoding.md R94, one constructor per row of spec/opcode_table.json, and the assembler's terms (R97). The operands carry their ranges in their types (R92): no instruction with an operand out of range can be built.
-/

namespace Sys2Proof

/-- The instructions (30_encoding.md R94). `x`, `y` are the register fields, `nn`, `nnn`, `n` the immediates. -/
inductive Instr where
  /-- 00E0 -/
  | cls
  /-- 00EE -/
  | ret
  /-- 1NNN -/
  | jp (nnn : Addr)
  /-- 2NNN -/
  | call (nnn : Addr)
  /-- 3XNN -/
  | sei (x : Reg) (nn : Byte)
  /-- 4XNN -/
  | snei (x : Reg) (nn : Byte)
  /-- 5XY0 -/
  | se (x y : Reg)
  /-- 9XY0 -/
  | sne (x y : Reg)
  /-- 6XNN -/
  | ldi (x : Reg) (nn : Byte)
  /-- 7XNN -/
  | addi (x : Reg) (nn : Byte)
  /-- 8XY0 -/
  | mov (x y : Reg)
  /-- 8XY1 -/
  | or (x y : Reg)
  /-- 8XY2 -/
  | and (x y : Reg)
  /-- 8XY3 -/
  | xor (x y : Reg)
  /-- 8XY4 -/
  | add (x y : Reg)
  /-- 8XY5 -/
  | sub (x y : Reg)
  /-- 8XY6 -/
  | shr (x y : Reg)
  /-- 8XY7 -/
  | subn (x y : Reg)
  /-- 8XYE -/
  | shl (x y : Reg)
  /-- ANNN -/
  | lda (nnn : Addr)
  /-- BNNN -/
  | jpv0 (nnn : Addr)
  /-- CXNN -/
  | rnd (x : Reg) (nn : Byte)
  /-- DXYN -/
  | drw (x y : Reg) (n : Nibble)
  /-- EX9E -/
  | skp (x : Reg)
  /-- EXA1 -/
  | sknp (x : Reg)
  /-- FX07 -/
  | lddt (x : Reg)
  /-- FX15 -/
  | stdt (x : Reg)
  /-- FX18 -/
  | stst (x : Reg)
  /-- FX0A -/
  | waitk (x : Reg)
  /-- FX1E -/
  | adda (x : Reg)
  /-- FX29 -/
  | font (x : Reg)
  /-- FX33 -/
  | bcd (x : Reg)
  /-- FX55 -/
  | stm (x : Reg)
  /-- FX65 -/
  | ldm (x : Reg)
  deriving DecidableEq, Repr

/-- The mnemonics of 30_encoding.md R94, one per row, in its order (decision D26). -/
inductive Mnemonic where
  | cls | ret | jp | call | sei | snei | se | sne
  | ldi | addi | mov | or | and | xor | add | sub | shr | subn | shl
  | lda | jpv0 | rnd | drw | skp | sknp | lddt | stdt | stst | waitk
  | adda | font | bcd | stm | ldm
  deriving DecidableEq, Repr

/-- The formats of 30_encoding.md R91. `rrn` is format RR with N an operand (DXYN). -/
inductive Format where
  | fix
  | a
  | ri
  | rr
  | rrn
  | r
  deriving DecidableEq, Repr

/-- The format of each row (30_encoding.md R94, column "format"). -/
def Mnemonic.format : Mnemonic → Format
  | .cls | .ret => .fix
  | .jp | .call | .lda | .jpv0 => .a
  | .sei | .snei | .ldi | .addi | .rnd => .ri
  | .se | .sne | .mov | .or | .and | .xor | .add | .sub | .shr | .subn | .shl => .rr
  | .drw => .rrn
  | .skp | .sknp | .lddt | .stdt | .stst | .waitk | .adda | .font | .bcd | .stm | .ldm => .r

/-- An operand of an assembler line: a register name `V0`..`VF` or a number (30_encoding.md R97). The number is raw: it may be out of range. -/
inductive AsmOperand where
  | reg (i : Nat)
  | num (v : Nat)
  deriving DecidableEq, Repr

/-- An assembler line: an instruction's mnemonic with its operands, or a data byte `DB nn` (30_encoding.md R97). -/
inductive AsmLine where
  | ins (m : Mnemonic) (operands : List AsmOperand)
  | db (v : Nat)
  deriving DecidableEq, Repr

end Sys2Proof
end

