-- ==== Sys2Proof/WellFormed.lean ====
section
/-!
DEFINITION. WellFormed: the checks on an assembler line (spec/30_encoding.md R97): the operands its format takes, in number and kind, each in its range. An `Instr` needs no check: its operand types admit no other values (log 27).
-/

namespace Sys2Proof

/-- `Vx`: a register operand V0..VF (30_encoding.md R97). -/
def AsmOperand.isReg : AsmOperand → Bool
  | .reg i => decide (i < 16)
  | .num _ => false

/-- A number operand below a bound: `nn` is 0..255, `nnn` 0..0xFFF, `n` 0..15 (30_encoding.md R97). -/
def AsmOperand.isNum (bound : Nat) : AsmOperand → Bool
  | .reg _ => false
  | .num v => decide (v < bound)

/-- The operands a format takes (30_encoding.md R91, R97). -/
def Format.accepts : Format → List AsmOperand → Bool
  | .fix, [] => true
  | .a, [o] => o.isNum 0x1000
  | .ri, [o, p] => o.isReg && p.isNum 0x100
  | .rr, [o, p] => o.isReg && p.isReg
  | .rrn, [o, p, q] => o.isReg && p.isReg && q.isNum 0x10
  | .r, [o] => o.isReg
  | _, _ => false

/-- A line is well-formed: its operands are those of its row, `SHR Vx` alone is allowed, and a data byte is 0..255 (30_encoding.md R97). -/
def AsmLine.wf : AsmLine → Bool
  | .ins .shr [o] => o.isReg
  | .ins m os => m.format.accepts os
  | .db v => decide (v < 0x100)

end Sys2Proof
end

