-- ==== Sys2Proof/Decode.lean ====
section
/-!
DEFINITION. Decode: reading an instruction word by its four hexadecimal digits (spec/30_encoding.md R91 to R95), writing one (R101), the opcode map as match and mask (R94), the byte order of a word in memory (spec/20_memory.md R63), and the assembler (R97, R98).
-/

namespace Sys2Proof

/-- An instruction word viewed as four hexadecimal digits, most significant first: family, X, Y, N (30_encoding.md R91). -/
structure Digits where
  f : Nibble
  x : Nibble
  y : Nibble
  n : Nibble
  deriving DecidableEq, Repr

/-- The digits of a word: bits 15:12, 11:8, 7:4, 3:0 (30_encoding.md R91). -/
def digitsOf (op : Word) : Digits :=
  { f := op.extractLsb' 12 4, x := op.extractLsb' 8 4, y := op.extractLsb' 4 4, n := op.extractLsb' 0 4 }

/-- The word of four digits. -/
def wordOf (d : Digits) : Word := d.f ++ d.x ++ d.y ++ d.n

/-- A register field's register (30_encoding.md R92). -/
def regOf (d : Nibble) : Reg := d.toFin

/-- A register's field. -/
def regDigit (r : Reg) : Nibble := BitVec.ofFin r

/-- The high digit of NN, bits 7:4. -/
def highDigit (nn : Byte) : Nibble := nn.extractLsb' 4 4

/-- The low digit of NN, bits 3:0. -/
def lowDigit (nn : Byte) : Nibble := nn.extractLsb' 0 4

/-- NN of its two digits: bits 7:0 (30_encoding.md R91). -/
def immOf (y n : Nibble) : Byte := y ++ n

/-- NNN of its three digits: bits 11:0, the extraction of 20_memory.md R73. -/
def addrOf (x y n : Nibble) : Addr := x ++ y ++ n

/-- The pattern that the digits match, every literal digit equal (30_encoding.md R93, R94, decision D24); `none` for an unrecognised word (R95). -/
def decodeDigits (d : Digits) : Option Instr :=
  match d.f, d.x, d.y, d.n with
  | 0x0, 0x0, 0xE, 0x0 => some .cls
  | 0x0, 0x0, 0xE, 0xE => some .ret
  | 0x1, x, y, n => some (.jp (addrOf x y n))
  | 0x2, x, y, n => some (.call (addrOf x y n))
  | 0x3, x, y, n => some (.sei (regOf x) (immOf y n))
  | 0x4, x, y, n => some (.snei (regOf x) (immOf y n))
  | 0x5, x, y, 0x0 => some (.se (regOf x) (regOf y))
  | 0x9, x, y, 0x0 => some (.sne (regOf x) (regOf y))
  | 0x6, x, y, n => some (.ldi (regOf x) (immOf y n))
  | 0x7, x, y, n => some (.addi (regOf x) (immOf y n))
  | 0x8, x, y, 0x0 => some (.mov (regOf x) (regOf y))
  | 0x8, x, y, 0x1 => some (.or (regOf x) (regOf y))
  | 0x8, x, y, 0x2 => some (.and (regOf x) (regOf y))
  | 0x8, x, y, 0x3 => some (.xor (regOf x) (regOf y))
  | 0x8, x, y, 0x4 => some (.add (regOf x) (regOf y))
  | 0x8, x, y, 0x5 => some (.sub (regOf x) (regOf y))
  | 0x8, x, y, 0x6 => some (.shr (regOf x) (regOf y))
  | 0x8, x, y, 0x7 => some (.subn (regOf x) (regOf y))
  | 0x8, x, y, 0xE => some (.shl (regOf x) (regOf y))
  | 0xA, x, y, n => some (.lda (addrOf x y n))
  | 0xB, x, y, n => some (.jpv0 (addrOf x y n))
  | 0xC, x, y, n => some (.rnd (regOf x) (immOf y n))
  | 0xD, x, y, n => some (.drw (regOf x) (regOf y) n)
  | 0xE, x, 0x9, 0xE => some (.skp (regOf x))
  | 0xE, x, 0xA, 0x1 => some (.sknp (regOf x))
  | 0xF, x, 0x0, 0x7 => some (.lddt (regOf x))
  | 0xF, x, 0x1, 0x5 => some (.stdt (regOf x))
  | 0xF, x, 0x1, 0x8 => some (.stst (regOf x))
  | 0xF, x, 0x0, 0xA => some (.waitk (regOf x))
  | 0xF, x, 0x1, 0xE => some (.adda (regOf x))
  | 0xF, x, 0x2, 0x9 => some (.font (regOf x))
  | 0xF, x, 0x3, 0x3 => some (.bcd (regOf x))
  | 0xF, x, 0x5, 0x5 => some (.stm (regOf x))
  | 0xF, x, 0x6, 0x5 => some (.ldm (regOf x))
  | _, _, _, _ => none

/-- Decode of an instruction word (40_step_cycle.md R122): total, no side effect, never a fault. -/
def decode (op : Word) : Option Instr := decodeDigits (digitsOf op)

/-- The word of two consecutive bytes, high byte first (20_memory.md R63). -/
def wordOfBytes (b0 b1 : Byte) : Word := b0 ++ b1

/-- The byte of a word stored at the lower address (30_encoding.md R101). -/
def highByte (op : Word) : Byte := op.extractLsb' 8 8

/-- The byte of a word stored at the higher address (30_encoding.md R101). -/
def lowByte (op : Word) : Byte := op.extractLsb' 0 8

/-- Why a byte sequence gives no instruction. -/
inductive DecodeReject where
  /-- Fewer than two bytes are left (30_encoding.md R90). -/
  | truncated
  /-- The word matches no pattern (30_encoding.md R95). -/
  | unrecognised (op : Word)
  deriving DecidableEq, Repr

/-- An instruction and the bytes after it, or the reason there is none. -/
inductive DecodeResult where
  | instr (i : Instr) (rest : List Byte)
  | reject (why : DecodeReject)
  deriving DecidableEq, Repr

/-- Decode of the first instruction of a byte sequence (30_encoding.md R90, 20_memory.md R63). -/
def decodeBytes : List Byte → DecodeResult
  | b0 :: b1 :: rest =>
    match decode (wordOfBytes b0 b1) with
    | some i => .instr i rest
    | none => .reject (.unrecognised (wordOfBytes b0 b1))
  | _ => .reject .truncated

/-- The digits of a word of format A (30_encoding.md R91). -/
def digitsA (f : Nibble) (nnn : Addr) : Digits :=
  { f := f, x := nnn.extractLsb' 8 4, y := nnn.extractLsb' 4 4, n := nnn.extractLsb' 0 4 }

/-- The digits of a word of format RI (30_encoding.md R91). -/
def digitsRI (f : Nibble) (x : Reg) (nn : Byte) : Digits :=
  { f := f, x := regDigit x, y := highDigit nn, n := lowDigit nn }

/-- The digits of a word of format RR (30_encoding.md R91). -/
def digitsRR (f : Nibble) (x y : Reg) (n : Nibble) : Digits :=
  { f := f, x := regDigit x, y := regDigit y, n := n }

/-- The digits of each instruction's word (30_encoding.md R94). -/
def encodeDigits : Instr → Digits
  | .cls => { f := 0x0, x := 0x0, y := 0xE, n := 0x0 }
  | .ret => { f := 0x0, x := 0x0, y := 0xE, n := 0xE }
  | .jp nnn => digitsA 0x1 nnn
  | .call nnn => digitsA 0x2 nnn
  | .sei x nn => digitsRI 0x3 x nn
  | .snei x nn => digitsRI 0x4 x nn
  | .se x y => digitsRR 0x5 x y 0x0
  | .sne x y => digitsRR 0x9 x y 0x0
  | .ldi x nn => digitsRI 0x6 x nn
  | .addi x nn => digitsRI 0x7 x nn
  | .mov x y => digitsRR 0x8 x y 0x0
  | .or x y => digitsRR 0x8 x y 0x1
  | .and x y => digitsRR 0x8 x y 0x2
  | .xor x y => digitsRR 0x8 x y 0x3
  | .add x y => digitsRR 0x8 x y 0x4
  | .sub x y => digitsRR 0x8 x y 0x5
  | .shr x y => digitsRR 0x8 x y 0x6
  | .subn x y => digitsRR 0x8 x y 0x7
  | .shl x y => digitsRR 0x8 x y 0xE
  | .lda nnn => digitsA 0xA nnn
  | .jpv0 nnn => digitsA 0xB nnn
  | .rnd x nn => digitsRI 0xC x nn
  | .drw x y n => digitsRR 0xD x y n
  | .skp x => digitsRI 0xE x 0x9E
  | .sknp x => digitsRI 0xE x 0xA1
  | .lddt x => digitsRI 0xF x 0x07
  | .stdt x => digitsRI 0xF x 0x15
  | .stst x => digitsRI 0xF x 0x18
  | .waitk x => digitsRI 0xF x 0x0A
  | .adda x => digitsRI 0xF x 0x1E
  | .font x => digitsRI 0xF x 0x29
  | .bcd x => digitsRI 0xF x 0x33
  | .stm x => digitsRI 0xF x 0x55
  | .ldm x => digitsRI 0xF x 0x65

/-- The instruction's word (30_encoding.md R94, R101). -/
def encode (i : Instr) : Word := wordOf (encodeDigits i)

/-- The instruction's two bytes in the order of their addresses (30_encoding.md R101). -/
def encodeBytes (i : Instr) : List Byte := [highByte (encode i), lowByte (encode i)]

/-- A row of the opcode map: word `op` matches it when `op & mask = bits` (30_encoding.md R93). -/
structure OpcodeRow where
  mnemonic : Mnemonic
  bits : Word
  mask : Word
  deriving DecidableEq, Repr

/-- The columns "match" and "mask" of 30_encoding.md R94. -/
def opcodeRow : Mnemonic → OpcodeRow
  | .cls => ⟨.cls, 0x00E0, 0xFFFF⟩
  | .ret => ⟨.ret, 0x00EE, 0xFFFF⟩
  | .jp => ⟨.jp, 0x1000, 0xF000⟩
  | .call => ⟨.call, 0x2000, 0xF000⟩
  | .sei => ⟨.sei, 0x3000, 0xF000⟩
  | .snei => ⟨.snei, 0x4000, 0xF000⟩
  | .se => ⟨.se, 0x5000, 0xF00F⟩
  | .sne => ⟨.sne, 0x9000, 0xF00F⟩
  | .ldi => ⟨.ldi, 0x6000, 0xF000⟩
  | .addi => ⟨.addi, 0x7000, 0xF000⟩
  | .mov => ⟨.mov, 0x8000, 0xF00F⟩
  | .or => ⟨.or, 0x8001, 0xF00F⟩
  | .and => ⟨.and, 0x8002, 0xF00F⟩
  | .xor => ⟨.xor, 0x8003, 0xF00F⟩
  | .add => ⟨.add, 0x8004, 0xF00F⟩
  | .sub => ⟨.sub, 0x8005, 0xF00F⟩
  | .shr => ⟨.shr, 0x8006, 0xF00F⟩
  | .subn => ⟨.subn, 0x8007, 0xF00F⟩
  | .shl => ⟨.shl, 0x800E, 0xF00F⟩
  | .lda => ⟨.lda, 0xA000, 0xF000⟩
  | .jpv0 => ⟨.jpv0, 0xB000, 0xF000⟩
  | .rnd => ⟨.rnd, 0xC000, 0xF000⟩
  | .drw => ⟨.drw, 0xD000, 0xF000⟩
  | .skp => ⟨.skp, 0xE09E, 0xF0FF⟩
  | .sknp => ⟨.sknp, 0xE0A1, 0xF0FF⟩
  | .lddt => ⟨.lddt, 0xF007, 0xF0FF⟩
  | .stdt => ⟨.stdt, 0xF015, 0xF0FF⟩
  | .stst => ⟨.stst, 0xF018, 0xF0FF⟩
  | .waitk => ⟨.waitk, 0xF00A, 0xF0FF⟩
  | .adda => ⟨.adda, 0xF01E, 0xF0FF⟩
  | .font => ⟨.font, 0xF029, 0xF0FF⟩
  | .bcd => ⟨.bcd, 0xF033, 0xF0FF⟩
  | .stm => ⟨.stm, 0xF055, 0xF0FF⟩
  | .ldm => ⟨.ldm, 0xF065, 0xF0FF⟩

/-- Word `op` matches the row (30_encoding.md R93). -/
def OpcodeRow.matches (r : OpcodeRow) (op : Word) : Bool := op &&& r.mask == r.bits

/-- The 34 mnemonics in the order of 30_encoding.md R94. -/
def allMnemonics : List Mnemonic :=
  [.cls, .ret, .jp, .call, .sei, .snei, .se, .sne, .ldi, .addi, .mov, .or, .and, .xor, .add, .sub, .shr] ++
  [.subn, .shl, .lda, .jpv0, .rnd, .drw, .skp, .sknp, .lddt, .stdt, .stst, .waitk, .adda, .font, .bcd, .stm, .ldm]

/-- The opcode map (30_encoding.md R94). -/
def opcodeMap : List OpcodeRow := allMnemonics.map opcodeRow

/-- The row an instruction belongs to. -/
def Instr.mnemonic : Instr → Mnemonic
  | .cls => .cls
  | .ret => .ret
  | .jp _ => .jp
  | .call _ => .call
  | .sei _ _ => .sei
  | .snei _ _ => .snei
  | .se _ _ => .se
  | .sne _ _ => .sne
  | .ldi _ _ => .ldi
  | .addi _ _ => .addi
  | .mov _ _ => .mov
  | .or _ _ => .or
  | .and _ _ => .and
  | .xor _ _ => .xor
  | .add _ _ => .add
  | .sub _ _ => .sub
  | .shr _ _ => .shr
  | .subn _ _ => .subn
  | .shl _ _ => .shl
  | .lda _ => .lda
  | .jpv0 _ => .jpv0
  | .rnd _ _ => .rnd
  | .drw _ _ _ => .drw
  | .skp _ => .skp
  | .sknp _ => .sknp
  | .lddt _ => .lddt
  | .stdt _ => .stdt
  | .stst _ => .stst
  | .waitk _ => .waitk
  | .adda _ => .adda
  | .font _ => .font
  | .bcd _ => .bcd
  | .stm _ => .stm
  | .ldm _ => .ldm

/-- The operands of an instruction's assembler line (30_encoding.md R97). -/
def Instr.operands : Instr → List AsmOperand
  | .cls | .ret => []
  | .jp nnn | .call nnn | .lda nnn | .jpv0 nnn => [.num nnn.toNat]
  | .sei x nn | .snei x nn | .ldi x nn | .addi x nn | .rnd x nn => [.reg x.val, .num nn.toNat]
  | .se x y | .sne x y | .mov x y | .or x y | .and x y | .xor x y | .add x y | .sub x y | .shr x y | .subn x y
  | .shl x y => [.reg x.val, .reg y.val]
  | .drw x y n => [.reg x.val, .reg y.val, .num n.toNat]
  | .skp x | .sknp x | .lddt x | .stdt x | .stst x | .waitk x | .adda x | .font x | .bcd x | .stm x | .ldm x =>
    [.reg x.val]

/-- The assembler line of an instruction (30_encoding.md R97). -/
def Instr.line (i : Instr) : AsmLine := .ins i.mnemonic i.operands

/-- A register of its number; the number is below 16 on every well-formed line. -/
def regOfNat (i : Nat) : Reg := Fin.ofNat 16 i

/-- The register of an operand's number. -/
def AsmOperand.asReg : AsmOperand → Reg
  | .reg i => regOfNat i
  | .num _ => 0

/-- The value of an operand's number. -/
def AsmOperand.asNat : AsmOperand → Nat
  | .reg _ => 0
  | .num v => v

/-- The word a mnemonic assembles to with the operands of a well-formed line (30_encoding.md R101): the row's match with the fields put in. -/
def assembleWord (m : Mnemonic) (os : List AsmOperand) : Word :=
  match m.format, os with
  | .a, [o] => (opcodeRow m).bits ||| BitVec.ofNat 16 o.asNat
  | .ri, [o, p] => (opcodeRow m).bits ||| BitVec.ofNat 16 (o.asReg.val <<< 8) ||| BitVec.ofNat 16 p.asNat
  | .rr, [o, p] => (opcodeRow m).bits ||| BitVec.ofNat 16 (o.asReg.val <<< 8) ||| BitVec.ofNat 16 (p.asReg.val <<< 4)
  | .rr, [o] => (opcodeRow m).bits ||| BitVec.ofNat 16 (o.asReg.val <<< 8)
  | .rrn, [o, p, q] =>
    (opcodeRow m).bits ||| BitVec.ofNat 16 (o.asReg.val <<< 8) ||| BitVec.ofNat 16 (p.asReg.val <<< 4)
      ||| BitVec.ofNat 16 q.asNat
  | .r, [o] => (opcodeRow m).bits ||| BitVec.ofNat 16 (o.asReg.val <<< 8)
  | _, _ => (opcodeRow m).bits

/-- The bytes a line assembles to: one word, high byte first, or one data byte; `none` for a line that is not well-formed (30_encoding.md R97, R98, R101). -/
def assembleLine (l : AsmLine) : Option (List Byte) :=
  if l.wf then
    match l with
    | .ins m os => some [highByte (assembleWord m os), lowByte (assembleWord m os)]
    | .db v => some [BitVec.ofNat 8 v]
  else none

/-- The bytes of a program's lines in order (30_encoding.md R98). -/
def assemble : List AsmLine → Option (List Byte)
  | [] => some []
  | l :: ls =>
    match assembleLine l, assemble ls with
    | some bs, some rest => some (bs ++ rest)
    | _, _ => none

/-- The word of a table entry: the instruction's bits, numbered as spec/opcode_table.json numbers them, those above `nbits` zero. -/
def tableWord (nbits w : Nat) : Word := BitVec.ofNat 16 (w % 2 ^ nbits)

/-- The bytes of a table entry as memory holds them, the high byte at the lower address (20_memory.md R63). -/
def tableBytes (nbits w : Nat) : List Byte := [highByte (tableWord nbits w), lowByte (tableWord nbits w)]

/-- The instruction the decoder reads from a table entry. -/
def decodeTableWord (nbits w : Nat) : Option Instr :=
  match decodeBytes (tableBytes nbits w) with
  | .instr i _ => some i
  | .reject _ => none

end Sys2Proof
end

