-- ==== Sys2Proof/Config.lean ====
section
/-!
DEFINITION. Config: the sizes the source fixes (spec/00_scope.md R5), the parameters an implementation fixes (R5, spec/92_eei_decisions.md), and the free values the spec leaves undetermined. The setting this model runs with is Machine/Params.lean.
-/

namespace Sys2Proof.Config

/-- MEM_SIZE, bytes of memory (00_scope.md R5). -/
abbrev memSize : Nat := 4096

/-- PROG_BASE, the load address and the reset value of pc (00_scope.md R5). -/
abbrev progBase : Nat := 0x200

/-- ROM_MAX, the longest program `load` accepts (00_scope.md R5). -/
abbrev romMax : Nat := 3584

/-- FONT_SIZE (00_scope.md R5). -/
abbrev fontSize : Nat := 80

/-- SHIFT_SOURCE: the register 8XY6 and 8XYE shift (decision D12). -/
inductive ShiftSource where
  | vx
  | vy
  deriving DecidableEq, Repr

/-- DATA_OOB: what a data access beyond 0x0FFF does (decision D6). `wrap` is named by the spec only as the alternative not taken. -/
inductive DataOob where
  | fault
  | wrap
  deriving DecidableEq, Repr

/-- KEY_INDEX: what EX9E and EXA1 do with VX > 15 (decision D7). `low4` is named by the spec only as the alternative not taken. -/
inductive KeyIndex where
  | fault
  | low4
  deriving DecidableEq, Repr

/-- VF_ORDER: which write wins when X = 15 (decision D11). `resultLast` is named by the spec only as the alternative not taken. -/
inductive VfOrder where
  | flagLast
  | resultLast
  deriving DecidableEq, Repr

/-- KEY_PICK: which of several pressed keys FX0A stores (decision D22): any of them, or the lowest. -/
inductive KeyPick where
  | draw
  | lowest
  deriving DecidableEq, Repr

/-- The parameters of 00_scope.md R5 that the source leaves open. -/
structure Params where
  /-- FONT: the 80 glyph bytes (20_memory.md R62, decision D19). -/
  font : Vector Byte 80
  /-- SHIFT_SOURCE (decision D12). -/
  shiftSource : ShiftSource
  /-- BLOCK_INC_I: FX55 and FX65 advance I (decision D13). -/
  blockIncI : Bool
  /-- SPRITE_MSB_LEFT: sprite bit 7 is column 0 (decision D17). -/
  spriteMsbLeft : Bool
  /-- KEY_PICK (decision D22). -/
  keyPick : KeyPick
  /-- DATA_OOB (decision D6). -/
  dataOob : DataOob
  /-- KEY_INDEX (decision D7). -/
  keyIndex : KeyIndex
  /-- VF_ORDER (decision D11). -/
  vfOrder : VfOrder
  deriving DecidableEq, Repr

/-- FREE VALUE (log 3): the byte that the n-th draw of `RandByte()` gives. Nothing constrains it (42_alu.md R164). -/
opaque randByte : Nat → Byte

/-- FREE VALUE (log 4): the choice the n-th draw makes among several pressed keys, read modulo their number. Nothing constrains it (45_keys_timers.md R214). -/
opaque keyChoice : Nat → Nat

end Sys2Proof.Config
end

