-- ==== Sys2Proof/Machine/Framebuffer.lean ====
section
/-!
DEFINITION. Machine/Framebuffer: the 64 x 32 one-bit pixels (spec/10_state.md R28, spec/44_display.md R200) and the drawing of a sprite on them (R202).
-/

namespace Sys2Proof.Machine

/-- The framebuffer: 32 rows of 64 pixels, `true` a set pixel (10_state.md R28). -/
abbrev Framebuffer := Vector (Vector Bool 64) 32

/-- Every pixel 0 (44_display.md R201, 10_state.md R40). -/
def blankFramebuffer : Framebuffer := Vector.replicate 32 (Vector.replicate 64 false)

/-- `fb[x][y]`, the pixel at column x and row y (10_state.md R28). -/
def pixelAt (fb : Framebuffer) (x : Fin 64) (y : Fin 32) : Bool := fb[y.val][x.val]

/-- `fb[x][y] <- fb[x][y] ^ 1` (44_display.md R202). -/
def togglePixel (fb : Framebuffer) (x : Fin 64) (y : Fin 32) : Framebuffer :=
  fb.set y.val (fb[y.val].set x.val (!pixelAt fb x y))

/-- `(x0 + col) mod 64` (44_display.md R202). -/
def columnOf (x0 : Byte) (col : Nat) : Fin 64 := Fin.ofNat 64 (x0.toNat + col)

/-- `(y0 + row) mod 32` (44_display.md R202). -/
def rowOf (y0 : Byte) (row : Nat) : Fin 32 := Fin.ofNat 32 (y0.toNat + row)

/-- The bit of a sprite byte that reaches column `col`: bit 7 is column 0 (44_display.md R200, SPRITE_MSB_LEFT, decision D17, log 8). -/
def spriteBit (p : Config.Params) (b : Byte) (col : Nat) : Bool :=
  if p.spriteMsbLeft then b.getLsbD (7 - col) else b.getLsbD col

/-- A drawing under way: the framebuffer so far, and `hit`, whether a pixel has gone from 1 to 0. -/
structure Drawing where
  fb : Framebuffer
  hit : Bool
  deriving DecidableEq, Repr

/-- The body of R202's inner loop: a sprite bit of 1 toggles its pixel and records a pixel that was 1; a bit of 0 does nothing. -/
def drawBit (s : Bool) (x : Fin 64) (y : Fin 32) (d : Drawing) : Drawing :=
  if s then { fb := togglePixel d.fb x y, hit := d.hit || pixelAt d.fb x y } else d

/-- R202's inner loop: the eight columns of one sprite byte. -/
def drawRow (p : Config.Params) (x0 : Byte) (y : Fin 32) (b : Byte) (d : Drawing) : Drawing :=
  [0, 1, 2, 3, 4, 5, 6, 7].foldl (fun d col => drawBit (spriteBit p b col) (columnOf x0 col) y d) d

/-- R202's outer loop: the sprite's bytes from row `row` on. -/
def drawRows (p : Config.Params) (x0 y0 : Byte) : Nat → List Byte → Drawing → Drawing
  | _, [], d => d
  | row, b :: bs, d => drawRows p x0 y0 (row + 1) bs (drawRow p x0 (rowOf y0 row) b d)

/-- The sprite's bytes drawn from its first row at start coordinates x0, y0 (44_display.md R202). -/
def drawSprite (p : Config.Params) (x0 y0 : Byte) (bytes : List Byte) (fb : Framebuffer) : Drawing :=
  drawRows p x0 y0 0 bytes { fb := fb, hit := false }

/-- A pixel as the host's buffer holds it: 0 or 1 (60_exceptions.md R247). -/
def pixelByte (b : Bool) : Byte := if b then 1 else 0

/-- The host's snapshot: one byte a pixel in row-major order, index y * 64 + x (60_exceptions.md R247, 10_state.md R28, decision D18, log 23). -/
def framebufferBytes (fb : Framebuffer) : List Byte := fb.toList.flatMap fun row => row.toList.map pixelByte

end Sys2Proof.Machine
end

