-- ==== Sys2Proof/Machine/Params.lean ====
section
/-!
DEFINITION. Machine/Params: the setting of the spec's parameters that this model runs with, each the spec's own default (spec/00_scope.md R5).
-/

namespace Sys2Proof.Machine

/-- FONT, glyphs 0 to 7 (20_memory.md R62). PRESUMED by the spec from general knowledge, decision D19 (log 5). -/
def fontLow : Vector Byte 40 :=
  #v[0xF0, 0x90, 0x90, 0x90, 0xF0, 0x20, 0x60, 0x20, 0x20, 0x70, 0xF0, 0x10, 0xF0, 0x80, 0xF0, 0xF0, 0x10, 0xF0, 0x10, 0xF0,
    0x90, 0x90, 0xF0, 0x10, 0x10, 0xF0, 0x80, 0xF0, 0x10, 0xF0, 0xF0, 0x80, 0xF0, 0x90, 0xF0, 0xF0, 0x10, 0x20, 0x40, 0x40]

/-- FONT, glyphs 8 to F (20_memory.md R62). PRESUMED by the spec from general knowledge, decision D19 (log 5). -/
def fontHigh : Vector Byte 40 :=
  #v[0xF0, 0x90, 0xF0, 0x90, 0xF0, 0xF0, 0x90, 0xF0, 0x10, 0xF0, 0xF0, 0x90, 0xF0, 0x90, 0x90, 0xE0, 0x90, 0xE0, 0x90, 0xE0,
    0xF0, 0x80, 0x80, 0x80, 0xF0, 0xE0, 0x90, 0x90, 0x90, 0xE0, 0xF0, 0x80, 0xF0, 0x80, 0xF0, 0xF0, 0x80, 0xF0, 0x80, 0x80]

/-- The parameters at the spec's defaults (00_scope.md R5): decisions D6, D7, D11, D12, D13, D17, D19, D22 (log 4 to 11). -/
def params : Config.Params :=
  { font := fontLow ++ fontHigh
    shiftSource := .vx
    blockIncI := false
    spriteMsbLeft := true
    keyPick := .draw
    dataOob := .fault
    keyIndex := .fault
    vfOrder := .flagLast }

end Sys2Proof.Machine
end

