-- ==== Sys2Proof/Machine/Memory.lean ====
section
/-!
DEFINITION. Machine/Memory: the 4096 bytes of main memory (spec/20_memory.md R60) as address and byte pairs in one canonical form, and the byte accesses of R65.
-/

namespace Sys2Proof.Machine

/-- Memory: the cells that differ from their reset contents, addresses strictly rising (log 14). -/
abbrev Memory := List Host.Cell

/-- What an unlisted address reads as: its reset contents, FONT at 0..79 and zero above (10_state.md R40, 20_memory.md R62). -/
def resetByte (a : Nat) : Byte := if h : a < 80 then params.font[a] else 0

/-- `MemRead(a, 1)`: the last byte written at `a`, else its reset contents (20_memory.md R65, 00_scope.md R7). -/
def Memory.read : Memory → Nat → Byte
  | [], a => resetByte a
  | (c, v) :: m, a => if a = c then v else Memory.read m a

/-- A cell put before cells at higher addresses, unless its byte is the reset contents. -/
def Memory.cons (a : Nat) (b : Byte) (m : Memory) : Memory := if b = resetByte a then m else (a, b) :: m

/-- `MemWrite(a, 1, b)` (00_scope.md R7); the caller has checked the bounds. Keeps the canonical form. -/
def Memory.write : Memory → Nat → Byte → Memory
  | [], a, b => Memory.cons a b []
  | (c, v) :: m, a, b =>
    if a < c then Memory.cons a b ((c, v) :: m)
    else if a = c then Memory.cons a b m
    else (c, v) :: Memory.write m a b

/-- The canonical form from address `lo` on: addresses strictly rising and inside memory, no byte equal to the reset contents. -/
def Memory.wfFrom : Nat → Memory → Bool
  | _, [] => true
  | lo, (c, v) :: m => decide (lo ≤ c) && decide (c < Config.memSize) && v != resetByte c && Memory.wfFrom (c + 1) m

/-- The canonical form (log 14). -/
def Memory.wf (m : Memory) : Bool := Memory.wfFrom 0 m

/-- The byte an access at the unbounded address `a` reaches: `a` itself, the caller having checked it (20_memory.md R67, DATA_OOB, decision D6, log 9). -/
def effectiveAddress (p : Config.Params) (a : Nat) : Nat :=
  match p.dataOob with
  | .fault => a
  | .wrap => a % Config.memSize

/-- The `n` bytes from address `a` upwards (20_memory.md R65). -/
def Memory.readBlock (p : Config.Params) (m : Memory) (a n : Nat) : List Byte :=
  (List.range n).map fun k => m.read (effectiveAddress p (a + k))

/-- Bytes written from address `a` upwards, ascending (20_memory.md R65). -/
def Memory.writeBlock (p : Config.Params) : Memory → Nat → List Byte → Memory
  | m, _, [] => m
  | m, a, b :: bs => Memory.writeBlock p (m.write (effectiveAddress p a) b) (a + 1) bs

/-- A program's bytes copied verbatim from address `a` upwards (20_memory.md R76, 70_reset_and_hazards.md R282). -/
def Memory.copy : Memory → Nat → List Byte → Memory
  | m, _, [] => m
  | m, a, b :: bs => Memory.copy (m.write a b) (a + 1) bs

end Sys2Proof.Machine
end

