-- ==== Sys2Proof/Machine/State.lean ====
section
/-!
DEFINITION. Machine/State: the machine's state (spec/10_state.md R20 to R35) and its reset values (R40), the fatal conditions (spec/60_exceptions.md R231), and the reasons an operation is refused.
-/

namespace Sys2Proof.Machine

/-- A fatal condition with the information it records (60_exceptions.md R231). It is what the state element `fault` holds (10_state.md R32): the step that raises one answers a NEXT state (R241), so no step and no meaning answers `Host.Outcome.fault`. Safe where the condition is the spec's own decision: the machine halts where the real block may go on (log 12). -/
inductive Fault where
  /-- 1: raised by 2NNN with sp = 16; records pc0 (60_exceptions.md R232). Safe: the source itself makes it fatal. -/
  | stackOverflow (pc0 : Word)
  /-- 2: raised by 00EE with sp = 0; records pc0 (60_exceptions.md R233). Safe: the source itself makes it fatal. -/
  | stackUnderflow (pc0 : Word)
  /-- 3: raised by the fetch of any step with pc + 1 > 0x0FFF; records pc (60_exceptions.md R234). Safe: the source itself makes it fatal. -/
  | fetchOutOfRange (pc : Word)
  /-- 4: raised by DXYN with N at least 1, FX33, FX55 and FX65 whose last address exceeds 0x0FFF; records I, and pc0 (60_exceptions.md R235, decision D6). Safe (log 9, 13). -/
  | dataOutOfRange (i pc0 : Word)
  /-- 5: raised by EX9E and EXA1 with VX > 15; records VX, and pc0 (60_exceptions.md R236, decision D7). Safe (log 10, 13). -/
  | keyIndexOutOfRange (vx : Byte) (pc0 : Word)
  deriving DecidableEq, Repr

/-- Why an operation has no meaning. -/
inductive Refusal where
  /-- An instruction with no meaning yet, by its mnemonic: raised by no arm of `exec`, since every instruction has its meaning. Safe. -/
  | notModelled (mnemonic : String)
  /-- Raised by the host operation `load` after a `step` since the last reset, to which the spec gives no meaning (70_reset_and_hazards.md R282, decision D28). Safe. -/
  | loadAfterStep
  /-- Raised by every host operation but `reset` before the first reset, to which the spec gives no meaning (70_reset_and_hazards.md R283, decision D33). Safe. -/
  | beforeFirstReset
  deriving DecidableEq, Repr

/-- Machine State (10_state.md R20). -/
structure State where
  /-- Main memory, 4096 bytes (20_memory.md R60). -/
  mem : Memory
  /-- V0..VF (10_state.md R21, R22). -/
  V : Vector Byte 16
  /-- The index register (10_state.md R23). -/
  I : Word
  /-- The program counter (10_state.md R24). -/
  pc : Word
  /-- The call stack's entries (10_state.md R25). -/
  stack : Vector Word 16
  /-- The number of live stack entries, 0..16 (10_state.md R26). -/
  sp : Fin 17
  /-- The delay timer (10_state.md R27). -/
  DT : Byte
  /-- The sound timer (10_state.md R27). -/
  ST : Byte
  /-- The framebuffer (10_state.md R28). -/
  fb : Framebuffer
  /-- The key latch, `true` pressed (10_state.md R29). -/
  key : Vector Bool 16
  /-- The redraw flag (10_state.md R30). -/
  redraw : Bool
  /-- The fatal condition that halted the machine (10_state.md R32). -/
  fault : Option Fault
  /-- "Tone active" of the last tick (10_state.md R33). -/
  tone : Bool
  /-- A `step` has happened since the last reset (10_state.md R34(d), log 2). -/
  started : Bool
  /-- THE MODEL'S OWN: how many free values have been taken (log 3). -/
  draws : Nat
  deriving DecidableEq, Repr

/-- The state after reset (10_state.md R40); `draws` is the model's own (DESIGN CHOICE, log 3). -/
def State.reset : State :=
  { mem := []
    V := Vector.replicate 16 0
    I := 0
    pc := 0x200
    stack := Vector.replicate 16 0
    sp := 0
    DT := 0
    ST := 0
    fb := blankFramebuffer
    key := Vector.replicate 16 false
    redraw := false
    fault := none
    tone := false
    started := false
    draws := 0 }

end Sys2Proof.Machine
end

