-- ==== Sys2Proof/Machine/Ops.lean ====
section
/-!
DEFINITION. Machine/Ops: the named operations over registers, pc, stack, timers, display flag and memory that the instruction rules use (spec/00_scope.md R7), and the taking of a fatal condition (spec/60_exceptions.md R241).
-/

namespace Sys2Proof.Machine

/-- What one operation answers. -/
abbrev Out := Host.Outcome State Fault Refusal

/-- `V[i]` (00_scope.md R7). -/
def State.readV (s : State) (r : Reg) : Byte := s.V[r.val]

/-- `V[i] <- v` (00_scope.md R7). -/
def State.writeV (s : State) (r : Reg) (v : Byte) : State := { s with V := s.V.set r.val v }

/-- VF, the flag register, is V[15] (10_state.md R22). -/
def vf : Reg := 15

/-- `pc <- target` (00_scope.md R7). -/
def State.jump (s : State) (target : Word) : State := { s with pc := target }

/-- `pc <- pc0 + 2` (40_step_cycle.md R123). -/
def State.advance (s : State) : State := s.jump (s.pc + 2)

/-- `pc <- pc0 + 4` if the condition holds, else `pc <- pc0 + 2` (40_step_cycle.md R123, 41_control_flow.md R137). -/
def State.skipIf (s : State) (c : Bool) : State := if c then s.jump (s.pc + 4) else s.advance

/-- `I <- v` (00_scope.md R7). -/
def State.setI (s : State) (v : Word) : State := { s with I := v }

/-- One free value has been taken (log 3). -/
def State.countDraw (s : State) : State := { s with draws := s.draws + 1 }

/-- TAKING A FATAL CONDITION: `fault` is set, every other element keeps its value, pc included, and the step ends (60_exceptions.md R241, 00_scope.md R7, decision D3, log 12). -/
def raiseFault (f : Fault) (s : State) : Out := .next { s with fault := some f }

/-- The push of 2NNN: `stack[sp] <- v`, `sp <- sp + 1`, where sp is below 16 (41_control_flow.md R132). -/
def State.push (s : State) (v : Word) (h : s.sp.val < 16) : State :=
  { s with stack := s.stack.set s.sp.val v, sp := ⟨s.sp.val + 1, Nat.succ_lt_succ h⟩ }

/-- The pop of 00EE: `sp <- sp - 1`, `pc <- stack[sp]`; the entry's bits stay (41_control_flow.md R131, decision D10, log 19). -/
def State.popPc (s : State) (h : 0 < s.sp.val) : State :=
  { s with
    sp := ⟨s.sp.val - 1, Nat.lt_of_le_of_lt (Nat.sub_le _ _) s.sp.isLt⟩
    pc := s.stack[s.sp.val - 1]'(Nat.lt_of_lt_of_le (Nat.sub_lt h Nat.one_pos) (Nat.le_of_lt_succ s.sp.isLt)) }

/-- The data bound check of an access of `count` bytes from I: its last address, an unbounded integer, exceeds 0x0FFF; an access of no byte never fails it (20_memory.md R67, decision D6, log 9). -/
def dataOutOfBounds (p : Config.Params) (s : State) (count : Nat) : Bool :=
  p.dataOob == .fault && decide (0 < count) && decide (0x0FFF < s.I.toNat + count - 1)

/-- The fatal condition of a failed data bound check (60_exceptions.md R235, log 13). -/
def raiseDataOutOfRange (s : State) : Out := raiseFault (.dataOutOfRange s.I s.pc) s

/-- The `n` bytes at I upwards (20_memory.md R65). -/
def State.loadBytes (p : Config.Params) (s : State) (n : Nat) : List Byte := s.mem.readBlock p s.I.toNat n

/-- Bytes stored at I upwards (20_memory.md R65). -/
def State.storeBytes (p : Config.Params) (s : State) (bs : List Byte) : State :=
  { s with mem := s.mem.writeBlock p s.I.toNat bs }

/-- A step has happened since the last reset (10_state.md R34(d), log 2). -/
def State.markStarted (s : State) : State := { s with started := true }

/-- The fetch bound: pc + 1 > 0x0FFF, as an unbounded integer (20_memory.md R66). -/
def fetchOutOfBounds (pc : Word) : Bool := decide (0x0FFF < pc.toNat + 1)

/-- The word at pc, high byte first (20_memory.md R63, 40_step_cycle.md R121). -/
def State.fetchWord (s : State) : Word := wordOfBytes (s.mem.read s.pc.toNat) (s.mem.read (s.pc.toNat + 1))

/-- What a step finds before it executes anything, in the order of 60_exceptions.md R240. -/
inductive Fetched where
  /-- `fault` is set already (40_step_cycle.md R127). -/
  | halted
  /-- The fetch bound fails (40_step_cycle.md R121). -/
  | outOfRange
  /-- The word matches no pattern (40_step_cycle.md R124). -/
  | unrecognised (op : Word)
  /-- The word is an instruction's (40_step_cycle.md R123). -/
  | instr (i : Instr)
  deriving DecidableEq, Repr

/-- Halted test, fetch bound, fetch, decode (40_step_cycle.md R120, 60_exceptions.md R240). -/
def fetchDecode (s : State) : Fetched :=
  if s.fault.isSome then .halted
  else if fetchOutOfBounds s.pc then .outOfRange
  else
    match decode s.fetchWord with
    | some i => .instr i
    | none => .unrecognised s.fetchWord

/-- The step whose fetch is out of range: FetchOutOfRange, pc keeps its value (60_exceptions.md R234). -/
def raiseFetchOutOfRange (s : State) : Out := raiseFault (.fetchOutOfRange s.pc) s

/-- The step of an unrecognised word: `pc <- pc0 + 2` and nothing else (40_step_cycle.md R124). -/
def passUnrecognised (s : State) : Out := .next s.advance

/-- The diagnostic UnrecognisedOpcode: the word and its address (60_exceptions.md R237). -/
structure Diag where
  op : Word
  addr : Word
  deriving DecidableEq, Repr

/-- The diagnostic a step emits (40_step_cycle.md R124, R127): an output of the step, not state (decision D25, log 16). -/
def stepDiag (s : State) : Option Diag :=
  match fetchDecode s with
  | .unrecognised op => some { op := op, addr := s.pc }
  | _ => none

/-- The conditions of the table of 60_exceptions.md R231, one for each row, in its order. -/
inductive Condition where
  | stackOverflow
  | stackUnderflow
  | fetchOutOfRange
  | dataOutOfRange
  | keyIndexOutOfRange
  | unrecognisedOpcode
  | loadOutOfRange
  deriving DecidableEq, Repr

/-- What a condition is: it halts the machine, it is a diagnostic only, or it is the error result of `load` (60_exceptions.md R231, column "tier"). -/
inductive Tier where
  | fatal
  | recoverable
  | loadError
  deriving DecidableEq, Repr

/-- The numeric code (60_exceptions.md R231, decision D5, log 13). -/
def Condition.code : Condition → Nat
  | .stackOverflow => 1
  | .stackUnderflow => 2
  | .fetchOutOfRange => 3
  | .dataOutOfRange => 4
  | .keyIndexOutOfRange => 5
  | .unrecognisedOpcode => 6
  | .loadOutOfRange => 7

/-- The tier (60_exceptions.md R231). -/
def Condition.tier : Condition → Tier
  | .stackOverflow | .stackUnderflow | .fetchOutOfRange | .dataOutOfRange | .keyIndexOutOfRange => .fatal
  | .unrecognisedOpcode => .recoverable
  | .loadOutOfRange => .loadError

/-- The condition whose information `fault` holds: rows 1 to 5 (60_exceptions.md R231). -/
def Fault.condition : Fault → Condition
  | .stackOverflow _ => .stackOverflow
  | .stackUnderflow _ => .stackUnderflow
  | .fetchOutOfRange _ => .fetchOutOfRange
  | .dataOutOfRange _ _ => .dataOutOfRange
  | .keyIndexOutOfRange _ _ => .keyIndexOutOfRange

/-- The condition a diagnostic reports: row 6 (60_exceptions.md R237). -/
def Diag.condition (_ : Diag) : Condition := .unrecognisedOpcode

/-- The code of what `fault` holds (60_exceptions.md R231). -/
def Fault.code (f : Fault) : Nat := f.condition.code

/-- The code of a diagnostic (60_exceptions.md R231). -/
def Diag.code (d : Diag) : Nat := d.condition.code

/-- A state whose next step fetches: not halted, pc where a fetch succeeds (log 15). -/
def State.readyToFetch (s : State) : State :=
  { s with fault := none, pc := if fetchOutOfBounds s.pc then 0x200 else s.pc }

/-- An instruction's bytes stored at pc upwards (log 15). -/
def State.placeAtPc (s : State) (bs : List Byte) : State := { s with mem := s.mem.copy s.pc.toNat bs }

end Sys2Proof.Machine
end

