-- ==== Sys2Proof/Machine/Operands.lean ====
section
/-!
DEFINITION. Machine/Operands: the operand forms of the instruction rules: immediates, jump targets, the shifted register, addresses put in I, register blocks, decimal digits, keys.
-/

namespace Sys2Proof.Machine

/-- `zext_16(NNN)` (30_encoding.md R92). -/
def zextAddr (nnn : Addr) : Word := nnn.setWidth 16

/-- `zext_16(v)` of a byte (00_scope.md R7). -/
def zextByte (v : Byte) : Word := v.setWidth 16

/-- BNNN's target: `zext_16(NNN) + zext_16(V[0])`, not masked (41_control_flow.md R138, decision D8, log 19). -/
def offsetTarget (s : State) (nnn : Addr) : Word := zextAddr nnn + zextByte (s.readV 0)

/-- The register value 8XY6 and 8XYE shift: VX in place (42_alu.md R159, R161, SHIFT_SOURCE, decision D12, log 6). -/
def shiftOperand (p : Config.Params) (s : State) (x y : Reg) : Byte :=
  match p.shiftSource with
  | .vx => s.readV x
  | .vy => s.readV y

/-- FX29's address: `zext_16(V[X]) * 5`, VX not masked (43_index_memory.md R183, decision D15, log 21). -/
def glyphAddress (v : Byte) : Word := zextByte v * 5

/-- I after a block transfer of V0..VX: unchanged (43_index_memory.md R185, R186, BLOCK_INC_I, decision D13, log 7). -/
def indexAfterBlock (p : Config.Params) (i : Word) (x : Reg) : Word :=
  if p.blockIncI then i + BitVec.ofNat 16 (x.val + 1) else i

/-- V0..VX in order (43_index_memory.md R185). -/
def blockOfRegs (s : State) (x : Reg) : List Byte := s.V.toList.take (x.val + 1)

/-- V with V0..VX replaced by the bytes of a block, the others unchanged (43_index_memory.md R186). -/
def regsWithBlock (v : Vector Byte 16) (x : Reg) (bs : List Byte) : Vector Byte 16 :=
  Vector.ofFn fun r : Fin 16 => if r ≤ x then bs.getD r.val 0 else v[r.val]

/-- FX33's three bytes: hundreds, tens, ones (43_index_memory.md R184). -/
def decimalDigits (v : Byte) : List Byte := [v / 100, v / 10 % 10, v % 10]

/-- The key EX9E and EXA1 test: VX, or none above 15 (45_keys_timers.md R210, KEY_INDEX, decision D7, log 10). -/
def keyIndex (p : Config.Params) (v : Byte) : Option Key :=
  match p.keyIndex with
  | .fault => if h : v.toNat < 16 then some ⟨v.toNat, h⟩ else none
  | .low4 => some (Fin.ofNat 16 v.toNat)

/-- `key[k]` (00_scope.md R7). -/
def State.keyDown (s : State) (k : Key) : Bool := s.key[k.val]

/-- The keys in the order of their indices. -/
def allKeys : List Key := [0, 1, 2, 3, 4, 5, 6, 7, 8, 9, 10, 11, 12, 13, 14, 15]

/-- `S`, the pressed keys (45_keys_timers.md R213). -/
def pressedKeys (s : State) : List Key := allKeys.filter s.keyDown

/-- `PickKey(S)`: some element of S, which one is left free; none if S is empty (45_keys_timers.md R214, KEY_PICK, decision D22, log 4). -/
def pickKey (p : Config.Params) (draw : Nat) (pressed : List Key) : Option Key :=
  match p.keyPick with
  | .draw => pressed[Config.keyChoice draw % pressed.length]?
  | .lowest => pressed.head?

/-- A key's index as a byte (45_keys_timers.md R213). -/
def keyByte (k : Key) : Byte := BitVec.ofNat 8 k.val

end Sys2Proof.Machine
end

