-- ==== Sys2Proof/Machine/Flags.lean ====
section
/-!
DEFINITION. Machine/Flags: the values VF receives (spec/10_state.md R22) and the order of the result's and the flag's writes (spec/00_scope.md R8).
-/

namespace Sys2Proof.Machine

/-- A flag as VF holds it: the whole register becomes 0x00 or 0x01 (10_state.md R22). -/
def flagByte (f : Bool) : Byte := if f then 1 else 0

/-- Carry of 8XY4: the true sum exceeds 255 (42_alu.md R157). -/
def carryOut (a b : Byte) : Bool := decide (255 < a.toNat + b.toNat)

/-- No borrow in `a - b`: a is at least b (42_alu.md R158, R160). -/
def noBorrow (a b : Byte) : Bool := decide (b.toNat ≤ a.toNat)

/-- Bit 0 before a shift right (42_alu.md R159). -/
def lowBit (a : Byte) : Bool := a.getLsbD 0

/-- Bit 7 before a shift left (42_alu.md R161). -/
def highBit (a : Byte) : Bool := a.getLsbD 7

/-- FX1E's flag: the true sum exceeds 0x0FFF (43_index_memory.md R182, decision D14, log 21). -/
def indexOverflow (i : Word) (a : Byte) : Bool := decide (0x0FFF < i.toNat + a.toNat)

/-- `V[15] <- flag`. -/
def State.writeFlag (s : State) (f : Bool) : State := s.writeV vf (flagByte f)

/-- The result to V[X], then the flag to V[15]: with X = 15 the flag is what VF holds (00_scope.md R8, VF_ORDER, decision D11, log 11). -/
def State.writeResultFlag (p : Config.Params) (s : State) (x : Reg) (v : Byte) (f : Bool) : State :=
  match p.vfOrder with
  | .flagLast => (s.writeV x v).writeFlag f
  | .resultLast => (s.writeFlag f).writeV x v

end Sys2Proof.Machine
end

