-- ==== Sys2Proof/Machine/Alu.lean ====
section
/-!
DEFINITION. Machine/Alu: register load, arithmetic, logic, shifts and random (spec/42_alu.md). Every one ends with pc0 + 2 and raises nothing.
-/

namespace Sys2Proof.Machine

/-- A result with no flag: `V[X] <- v`, `pc <- pc0 + 2`. -/
def finishResult (x : Reg) (v : Byte) (s : State) : Out := .next (s.writeV x v).advance

/-- A result with a flag: `V[X] <- v`, `V[15] <- f`, `pc <- pc0 + 2` (R150). -/
def finishResultFlag (p : Config.Params) (x : Reg) (v : Byte) (f : Bool) (s : State) : Out :=
  .next (s.writeResultFlag p x v f).advance

/-- 6XNN (R151). -/
def execLdi (x : Reg) (nn : Byte) (s : State) : Out := finishResult x nn s

/-- 7XNN (R152): wraps modulo 256, no flag. -/
def execAddi (x : Reg) (nn : Byte) (s : State) : Out := finishResult x (s.readV x + nn) s

/-- 8XY0 (R153). -/
def execMov (x y : Reg) (s : State) : Out := finishResult x (s.readV y) s

/-- 8XY1 (R154): VF untouched. -/
def execOr (x y : Reg) (s : State) : Out := finishResult x (s.readV x ||| s.readV y) s

/-- 8XY2 (R155): VF untouched. -/
def execAnd (x y : Reg) (s : State) : Out := finishResult x (s.readV x &&& s.readV y) s

/-- 8XY3 (R156): VF untouched. -/
def execXor (x y : Reg) (s : State) : Out := finishResult x (s.readV x ^^^ s.readV y) s

/-- 8XY4 (R157) under any setting of the parameters. -/
def execAddWith (p : Config.Params) (x y : Reg) (s : State) : Out :=
  finishResultFlag p x (s.readV x + s.readV y) (carryOut (s.readV x) (s.readV y)) s

/-- 8XY4 (R157). -/
def execAdd (x y : Reg) (s : State) : Out := execAddWith params x y s

/-- 8XY5 (R158) under any setting of the parameters. -/
def execSubWith (p : Config.Params) (x y : Reg) (s : State) : Out :=
  finishResultFlag p x (s.readV x - s.readV y) (noBorrow (s.readV x) (s.readV y)) s

/-- 8XY5 (R158). -/
def execSub (x y : Reg) (s : State) : Out := execSubWith params x y s

/-- 8XY6 (R159) under any setting of the parameters. -/
def execShrWith (p : Config.Params) (x y : Reg) (s : State) : Out :=
  finishResultFlag p x (shiftOperand p s x y >>> 1) (lowBit (shiftOperand p s x y)) s

/-- 8XY6 (R159). -/
def execShr (x y : Reg) (s : State) : Out := execShrWith params x y s

/-- 8XY7 (R160) under any setting of the parameters. -/
def execSubnWith (p : Config.Params) (x y : Reg) (s : State) : Out :=
  finishResultFlag p x (s.readV y - s.readV x) (noBorrow (s.readV y) (s.readV x)) s

/-- 8XY7 (R160). -/
def execSubn (x y : Reg) (s : State) : Out := execSubnWith params x y s

/-- 8XYE (R161) under any setting of the parameters. -/
def execShlWith (p : Config.Params) (x y : Reg) (s : State) : Out :=
  finishResultFlag p x (shiftOperand p s x y <<< 1) (highBit (shiftOperand p s x y)) s

/-- 8XYE (R161). -/
def execShl (x y : Reg) (s : State) : Out := execShlWith params x y s

/-- `RandByte()`: a free value, a fresh one at every draw (R164, decision D21, log 3). -/
def randByte (s : State) : Byte := Config.randByte s.draws

/-- CXNN (R163). -/
def execRnd (x : Reg) (nn : Byte) (s : State) : Out := finishResult x (randByte s &&& nn) s.countDraw

end Sys2Proof.Machine
end

