-- ==== Sys2Proof/Machine/ControlFlow.lean ====
section
/-!
DEFINITION. Machine/ControlFlow: jump, call, return and the register skips (spec/41_control_flow.md).
-/

namespace Sys2Proof.Machine

/-- 1NNN (R130). -/
def execJp (nnn : Addr) (s : State) : Out := .next (s.jump (zextAddr nnn))

/-- 00EE (R131). -/
def execRet (s : State) : Out :=
  if h : 0 < s.sp.val then .next (s.popPc h) else raiseFault (.stackUnderflow s.pc) s

/-- 2NNN (R132); the entry pushed is pc0 + 2 (decision D10, log 19). -/
def execCall (nnn : Addr) (s : State) : Out :=
  if h : s.sp.val < 16 then .next ((s.push (s.pc + 2) h).jump (zextAddr nnn)) else raiseFault (.stackOverflow s.pc) s

/-- 3XNN (R133). -/
def execSei (x : Reg) (nn : Byte) (s : State) : Out := .next (s.skipIf (s.readV x == nn))

/-- 4XNN (R134). -/
def execSnei (x : Reg) (nn : Byte) (s : State) : Out := .next (s.skipIf (s.readV x != nn))

/-- 5XY0 (R135). -/
def execSe (x y : Reg) (s : State) : Out := .next (s.skipIf (s.readV x == s.readV y))

/-- 9XY0 (R136). -/
def execSne (x y : Reg) (s : State) : Out := .next (s.skipIf (s.readV x != s.readV y))

/-- BNNN (R138). -/
def execJpv0 (nnn : Addr) (s : State) : Out := .next (s.jump (offsetTarget s nnn))

end Sys2Proof.Machine
end

