-- ==== Sys2Proof/Machine/Display.lean ====
section
/-!
DEFINITION. Machine/Display: clear the screen and draw a sprite (spec/44_display.md).
-/

namespace Sys2Proof.Machine

/-- The framebuffer written and `redraw` set (10_state.md R30). -/
def State.show (s : State) (fb : Framebuffer) : State := { s with fb := fb, redraw := true }

/-- 00E0 (R201). -/
def execCls (s : State) : Out := .next (s.show blankFramebuffer).advance

/-- The drawing of DXYN: the N bytes at I, at VX, VY as they are before VF is written (R202). -/
def spriteDrawing (p : Config.Params) (x y : Reg) (n : Nibble) (s : State) : Drawing :=
  drawSprite p (s.readV x) (s.readV y) (s.loadBytes p n.toNat) s.fb

/-- DXYN (R202) under any setting of the parameters. -/
def execDrwWith (p : Config.Params) (x y : Reg) (n : Nibble) (s : State) : Out :=
  if dataOutOfBounds p s n.toNat then raiseDataOutOfRange s
  else .next ((s.show (spriteDrawing p x y n s).fb).writeFlag (spriteDrawing p x y n s).hit).advance

/-- DXYN (R202). -/
def execDrw (x y : Reg) (n : Nibble) (s : State) : Out := execDrwWith params x y n s

end Sys2Proof.Machine
end

