-- ==== Sys2Proof/Machine/IndexMemory.lean ====
section
/-!
DEFINITION. Machine/IndexMemory: the index register and the memory transfers (spec/43_index_memory.md).
-/

namespace Sys2Proof.Machine

/-- ANNN (R181). -/
def execLda (nnn : Addr) (s : State) : Out := .next (s.setI (zextAddr nnn)).advance

/-- FX1E (R182): the sum modulo 65536 to I, then the flag to VF. -/
def execAdda (x : Reg) (s : State) : Out :=
  .next ((s.setI (s.I + zextByte (s.readV x))).writeFlag (indexOverflow s.I (s.readV x))).advance

/-- FX29 (R183). -/
def execFont (x : Reg) (s : State) : Out := .next (s.setI (glyphAddress (s.readV x))).advance

/-- FX33 (R184) under any setting of the parameters. -/
def execBcdWith (p : Config.Params) (x : Reg) (s : State) : Out :=
  if dataOutOfBounds p s 3 then raiseDataOutOfRange s else .next (s.storeBytes p (decimalDigits (s.readV x))).advance

/-- FX33 (R184). -/
def execBcd (x : Reg) (s : State) : Out := execBcdWith params x s

/-- FX55 (R185) under any setting of the parameters. -/
def execStmWith (p : Config.Params) (x : Reg) (s : State) : Out :=
  if dataOutOfBounds p s (x.val + 1) then raiseDataOutOfRange s
  else .next ((s.storeBytes p (blockOfRegs s x)).setI (indexAfterBlock p s.I x)).advance

/-- FX55 (R185). -/
def execStm (x : Reg) (s : State) : Out := execStmWith params x s

/-- The state with V0..VX loaded from the bytes at I upwards (R186). -/
def State.loadRegs (p : Config.Params) (s : State) (x : Reg) : State :=
  { s with V := regsWithBlock s.V x (s.loadBytes p (x.val + 1)) }

/-- FX65 (R186) under any setting of the parameters. -/
def execLdmWith (p : Config.Params) (x : Reg) (s : State) : Out :=
  if dataOutOfBounds p s (x.val + 1) then raiseDataOutOfRange s
  else .next ((s.loadRegs p x).setI (indexAfterBlock p s.I x)).advance

/-- FX65 (R186). -/
def execLdm (x : Reg) (s : State) : Out := execLdmWith params x s

end Sys2Proof.Machine
end

