-- ==== Sys2Proof/Machine/KeysTimers.lean ====
section
/-!
DEFINITION. Machine/KeysTimers: the key and timer instructions (spec/45_keys_timers.md).
-/

namespace Sys2Proof.Machine

/-- A skip on the state of key VX: KeyIndexOutOfRange where VX names no key (R210). -/
def skipOnKey (p : Config.Params) (x : Reg) (pressed : Bool) (s : State) : Out :=
  match keyIndex p (s.readV x) with
  | some k => .next (s.skipIf (s.keyDown k == pressed))
  | none => raiseFault (.keyIndexOutOfRange (s.readV x) s.pc) s

/-- EX9E (R211). -/
def execSkp (x : Reg) (s : State) : Out := skipOnKey params x true s

/-- EXA1 (R212). -/
def execSknp (x : Reg) (s : State) : Out := skipOnKey params x false s

/-- FX0A (R213) under any setting of the parameters: nothing changes while no key is pressed. -/
def execWaitkWith (p : Config.Params) (x : Reg) (s : State) : Out :=
  match pickKey p s.draws (pressedKeys s) with
  | some k => .next (s.countDraw.writeV x (keyByte k)).advance
  | none => .next s

/-- FX0A (R213). -/
def execWaitk (x : Reg) (s : State) : Out := execWaitkWith params x s

/-- FX07 (R215). -/
def execLddt (x : Reg) (s : State) : Out := .next (s.writeV x s.DT).advance

/-- The delay timer written (10_state.md R27). -/
def State.setDT (s : State) (v : Byte) : State := { s with DT := v }

/-- The sound timer written (10_state.md R27). -/
def State.setST (s : State) (v : Byte) : State := { s with ST := v }

/-- FX15 (R216). -/
def execStdt (x : Reg) (s : State) : Out := .next (s.setDT (s.readV x)).advance

/-- FX18 (R217). -/
def execStst (x : Reg) (s : State) : Out := .next (s.setST (s.readV x)).advance

end Sys2Proof.Machine
end

