-- ==== Sys2Proof/Machine/Step.lean ====
section
/-!
DEFINITION. Machine/Step: the `step` operation (spec/40_step_cycle.md R120), and the placing of one instruction where the next step fetches it.
-/

namespace Sys2Proof.Machine

/-- The `step` operation (40_step_cycle.md R120): nothing while halted (R127); else the fetch bound (R121), the unrecognised word (R124) or the instruction (R123). Its diagnostic is `stepDiag`. -/
def step (s : State) : Host.Outcome State Fault Refusal :=
  match fetchDecode s with
  | .halted => .next s
  | .outOfRange => raiseFetchOutOfRange s.markStarted
  | .unrecognised _ => passUnrecognised s.markStarted
  | .instr i => exec i s.markStarted

/-- `s` with the table entry's instruction where `step` fetches next (log 15). -/
def State.withFetchWord (s : State) (nbits w : Nat) : State := s.readyToFetch.placeAtPc (tableBytes nbits w)

end Sys2Proof.Machine
end

