-- ==== Sys2Proof/Machine/HostOps.lean ====
section
/-!
DEFINITION. Machine/HostOps: the six operations of spec/00_scope.md R9 and their interleavings (spec/60_exceptions.md R251), and what the host can read (R247, R250).
-/

namespace Sys2Proof.Machine

/-- `reset` (70_reset_and_hazards.md R280): every element at its reset value, whatever the state was. The random source is not touched (R281), so `draws` stays (log 3). -/
def State.resetOp (s : State) : State := { State.reset with draws := s.draws }

/-- `tick_timers` (60_exceptions.md R244, R245): `tone` is evaluated before the decrement; works while halted (decision D4, log 18). -/
def State.tickTimers (s : State) : State :=
  { s with
    tone := decide (0 < s.ST.toNat)
    DT := if 0 < s.DT.toNat then s.DT - 1 else s.DT
    ST := if 0 < s.ST.toNat then s.ST - 1 else s.ST }

/-- `set_key(k, b)` (60_exceptions.md R249). -/
def State.setKey (s : State) (k : Key) (b : Bool) : State := { s with key := s.key.set k.val b }

/-- `clear_redraw` (60_exceptions.md R248). -/
def State.clearRedraw (s : State) : State := { s with redraw := false }

/-- The result of `load` (70_reset_and_hazards.md R282). -/
inductive LoadResult where
  | ok
  /-- 7: LoadOutOfRange, with the length (60_exceptions.md R238); returned to the host, `fault` is not set. -/
  | outOfRange (length : Nat)
  deriving DecidableEq, Repr

/-- The condition of a result of `load`: row 7 where it is an error, none where it is ok (60_exceptions.md R231, R238). -/
def LoadResult.condition : LoadResult → Option Condition
  | .ok => none
  | .outOfRange _ => some .loadOutOfRange

/-- The code of an error result of `load` (60_exceptions.md R231). -/
def LoadResult.code (r : LoadResult) : Option Nat := r.condition.map Condition.code

/-- The result `load` returns (70_reset_and_hazards.md R282). -/
def loadResult (bytes : List Byte) : LoadResult :=
  if Config.romMax < bytes.length then .outOfRange bytes.length else .ok

/-- `load(bytes)` inside its window (70_reset_and_hazards.md R282): copies all or nothing. -/
def State.loadProgram (s : State) (bytes : List Byte) : State :=
  if Config.romMax < bytes.length then s else { s with mem := s.mem.copy Config.progBase bytes }

/-- The operations of 00_scope.md R9. -/
inductive HostOp where
  | reset
  | load (bytes : List Byte)
  | step
  | tickTimers
  | setKey (k : Key) (b : Bool)
  | clearRedraw
  deriving DecidableEq, Repr

/-- What an operation reports to the host besides the state (60_exceptions.md R237, R238, R250). -/
inductive Event where
  | diag (d : Diag)
  | loaded (r : LoadResult)
  deriving DecidableEq, Repr

/-- The condition an event reports, if it is one of the table of 60_exceptions.md R231. -/
def Event.condition : Event → Option Condition
  | .diag d => some d.condition
  | .loaded r => r.condition

/-- A session: before the first reset nothing is specified (70_reset_and_hazards.md R283). -/
inductive Session where
  | unpowered
  | live (s : State)
  deriving DecidableEq, Repr

/-- `load` with its window: refused after a step since the last reset (70_reset_and_hazards.md R282, decision D28, log 17). -/
def loadOp (bytes : List Byte) (s : State) : Out :=
  if s.started then .refused .loadAfterStep else .next (s.loadProgram bytes)

/-- One operation on the state (00_scope.md R9). -/
def operate (op : HostOp) (s : State) : Out :=
  match op with
  | .reset => .next s.resetOp
  | .load bytes => loadOp bytes s
  | .step => step s
  | .tickTimers => .next s.tickTimers
  | .setKey k b => .next (s.setKey k b)
  | .clearRedraw => .next s.clearRedraw

/-- What the operation reports (60_exceptions.md R237, R238). -/
def events (op : HostOp) (s : State) : List Event :=
  match op with
  | .load bytes => if s.started then [] else [.loaded (loadResult bytes)]
  | .step => (stepDiag s).toList.map .diag
  | _ => []

/-- A session's state after an operation. -/
def liveOutcome : Out → Host.Outcome Session Fault Refusal
  | .next t => .next (.live t)
  | .fault f => .fault f
  | .refused r => .refused r

/-- One operation on a session: before the first reset only `reset` has a meaning (70_reset_and_hazards.md R283, decision D33, log 17). -/
def operateSession (op : HostOp) : Session → Host.Outcome Session Fault Refusal
  | .live s => liveOutcome (operate op s)
  | .unpowered =>
    match op with
    | .reset => .next (.live State.reset)
    | _ => .refused .beforeFirstReset

/-- A run: the operations in their total order, in any interleaving (20_memory.md R70, 60_exceptions.md R251). -/
def runOps : List HostOp → State → Out
  | [], s => .next s
  | op :: ops, s =>
    match operate op s with
    | .next t => runOps ops t
    | .fault f => .fault f
    | .refused r => .refused r

/-- What the host can read between two operations (60_exceptions.md R247, R250). -/
structure HostView where
  pixels : List Byte
  redraw : Bool
  tone : Bool
  fault : Option Fault
  deriving DecidableEq, Repr

/-- The host's reading of the state: no side effect (60_exceptions.md R247). -/
def State.hostView (s : State) : HostView :=
  { pixels := framebufferBytes s.fb, redraw := s.redraw, tone := s.tone, fault := s.fault }

end Sys2Proof.Machine
end

