-- ==== Sys2Proof/Safety.lean ====
section
/-!
DEFINITION. Safety: the terms claims are stated in: the fields of an instruction word, the state's elements and frames over them, the state invariant (spec/10_state.md R41), safe steps (spec/70_reset_and_hazards.md R286), and the two ends of a run (R292).
-/

namespace Sys2Proof

/-- X, bits 11:8 of the word, as a number (30_encoding.md R91). -/
def fieldX (op : Word) : Reg := Fin.ofNat 16 (op.toNat / 0x100)

/-- Y, bits 7:4 of the word, as a number (30_encoding.md R91). -/
def fieldY (op : Word) : Reg := Fin.ofNat 16 (op.toNat / 0x10)

/-- N, bits 3:0 of the word (30_encoding.md R91). -/
def fieldN (op : Word) : Nibble := BitVec.ofNat 4 op.toNat

/-- NN, bits 7:0 of the word (30_encoding.md R91). -/
def fieldNN (op : Word) : Byte := BitVec.ofNat 8 op.toNat

/-- NNN, bits 11:0 of the word (30_encoding.md R91). -/
def fieldNNN (op : Word) : Addr := BitVec.ofNat 12 op.toNat

/-- The elements of the state (10_state.md R20), with `started` and the model's own `draws`. -/
inductive Elem where
  | mem | V | I | pc | stack | sp | DT | ST | fb | key | redraw | fault | tone | started | draws
  deriving DecidableEq, Repr

namespace Machine

/-- The element holds the same in both states; memory and the arrays are compared entry by entry, memory through the read of one byte. -/
def SameElem (s t : State) : Elem → Prop
  | .mem => ∀ a, t.mem.read a = s.mem.read a
  | .V => ∀ r, t.readV r = s.readV r
  | .I => t.I = s.I
  | .pc => t.pc = s.pc
  | .stack => ∀ k : Fin 16, t.stack[k.val] = s.stack[k.val]
  | .sp => t.sp = s.sp
  | .DT => t.DT = s.DT
  | .ST => t.ST = s.ST
  | .fb => ∀ x y, pixelAt t.fb x y = pixelAt s.fb x y
  | .key => ∀ k, t.keyDown k = s.keyDown k
  | .redraw => t.redraw = s.redraw
  | .fault => t.fault = s.fault
  | .tone => t.tone = s.tone
  | .started => t.started = s.started
  | .draws => t.draws = s.draws

/-- Every element outside `changed` holds the same in both states. -/
def Frame (changed : List Elem) (s t : State) : Prop := ∀ e, e ∉ changed → SameElem s t e

/-- The registers outside `changed` hold the same in both states. -/
def RegFrame (changed : List Reg) (s t : State) : Prop := ∀ r, r ∉ changed → t.readV r = s.readV r

/-- The memory bytes outside the `n` bytes from `base` read the same in both states. -/
def MemFrame (base n : Nat) (s t : State) : Prop :=
  ∀ a, (a < base ∨ base + n ≤ a) → t.mem.read a = s.mem.read a

/-- The byte at `a`, as a number, once the `n` bytes `stored 0`, `stored 1`, ... lie from I upwards; every other byte is as it was (20_memory.md R65, R72). -/
def overlaid (s : State) (n : Nat) (stored : Nat → Nat) (a : Nat) : Nat :=
  if s.I.toNat ≤ a ∧ a < s.I.toNat + n then stored (a - s.I.toNat) else (s.mem.read a).toNat

/-- FX33's bytes as numbers: hundreds, tens, ones (43_index_memory.md R184). -/
def decimalDigit (v : Byte) : Nat → Nat
  | 0 => v.toNat / 100
  | 1 => v.toNat / 10 % 10
  | _ => v.toNat % 10

/-- FX55's bytes as numbers: V0, V1, ... (43_index_memory.md R185). -/
def registerNumber (s : State) (k : Nat) : Nat := (s.readV (Fin.ofNat 16 k)).toNat

/-- The invariant of 10_state.md R41 where the types do not give it already: the memory keeps its canonical form, pc is at most 0x10FE, every live stack entry is in 0x0002..0x1000. -/
def State.Inv (s : State) : Prop :=
  s.mem.wf = true ∧ s.pc.toNat ≤ 0x10FE ∧
    ∀ k : Fin 16, k.val < s.sp.val → 0x0002 ≤ s.stack[k.val].toNat ∧ s.stack[k.val].toNat ≤ 0x1000

/-- The registers an instruction may write: its destination, VF where it sets the flag, V0..VX for FX65 (10_state.md R21, R22). -/
def WritesReg : Instr → Reg → Prop
  | .ldi x _, r | .addi x _, r | .mov x _, r | .or x _, r | .and x _, r | .xor x _, r | .rnd x _, r | .lddt x, r
  | .waitk x, r => r = x
  | .add x _, r | .sub x _, r | .shr x _, r | .subn x _, r | .shl x _, r => r = x ∨ r = vf
  | .drw _ _ _, r | .adda _, r => r = vf
  | .ldm x, r => r ≤ x
  | .cls, _ | .ret, _ | .jp _, _ | .call _, _ | .sei _ _, _ | .snei _ _, _ | .se _ _, _ | .sne _ _, _ | .lda _, _
  | .jpv0 _, _ | .skp _, _ | .sknp _, _ | .stdt _, _ | .stst _, _ | .font _, _ | .bcd _, _ | .stm _, _ => False

/-- What a program must respect at an instruction, (a), (b), (d), (e) of 70_reset_and_hazards.md R286: the instruction raises no fatal condition. -/
def InstrSafe (s : State) : Instr → Prop
  | .call _ => s.sp.val ≠ 16
  | .ret => s.sp.val ≠ 0
  | .drw _ _ n => n.toNat = 0 ∨ s.I.toNat + n.toNat - 1 ≤ 0x0FFF
  | .bcd _ => s.I.toNat + 2 ≤ 0x0FFF
  | .stm x | .ldm x => s.I.toNat + x.val ≤ 0x0FFF
  | .skp x | .sknp x => (s.readV x).toNat ≤ 15
  | .cls | .jp _ | .sei _ _ | .snei _ _ | .se _ _ | .sne _ _ | .ldi _ _ | .addi _ _ | .mov _ _ | .or _ _ | .and _ _
  | .xor _ _ | .add _ _ | .sub _ _ | .shr _ _ | .subn _ _ | .shl _ _ | .lda _ | .jpv0 _ | .rnd _ _ | .lddt _ | .stdt _
  | .stst _ | .waitk _ | .adda _ | .font _ => True

/-- The step from a running state raises no fatal condition: (a) to (e) of 70_reset_and_hazards.md R286. -/
def StepSafe (s : State) : Prop := s.pc.toNat ≤ 0x0FFE ∧ ∀ i, decode s.fetchWord = some i → InstrSafe s i

/-- The run has ended faulted (70_reset_and_hazards.md R292(a)). -/
def Faulted (s : State) : Prop := s.fault ≠ none

/-- The run has ended idle: pc holds the address of a jump to itself (70_reset_and_hazards.md R292(b)). -/
def Idle (s : State) : Prop :=
  s.fault = none ∧ s.pc.toNat ≤ 0x0FFE ∧ ∃ nnn, decode s.fetchWord = some (.jp nnn) ∧ nnn.toNat = s.pc.toNat

/-- The step executes this instruction: the machine is not halted, the fetch is in range and the word is the instruction's. -/
def Executes (s : State) (i : Instr) : Prop :=
  s.fault = none ∧ s.pc.toNat + 1 ≤ 0x0FFF ∧ decode s.fetchWord = some i

/-- `reset` is the only operation that ends the halted state (60_exceptions.md R242). -/
def HostOp.isReset : HostOp → Bool
  | .reset => true
  | .load _ | .step | .tickTimers | .setKey _ _ | .clearRedraw => false

/-- How many ticks a sequence of operations holds. -/
def tickCount (ops : List HostOp) : Nat := ops.countP fun op => op == .tickTimers

/-- No step of the run executes FX15, and no operation of it is a `reset`. -/
def NoTimerWrite : List HostOp → State → Prop
  | [], _ => True
  | op :: ops, s =>
    op.isReset = false ∧ (op = .step → ∀ x, ¬ Executes s (.stdt x)) ∧ ∀ t, operate op s = .next t → NoTimerWrite ops t

/-- The two states differ at most in `redraw` (10_state.md R30). -/
def SameButRedraw (s t : State) : Prop := t = { s with redraw := t.redraw }

/-- The two states differ at most in dead stack entries, those at indices from sp on (10_state.md R25). -/
def SameButDeadStack (s t : State) : Prop :=
  t = { s with stack := t.stack } ∧ ∀ k : Fin 16, k.val < s.sp.val → t.stack[k.val] = s.stack[k.val]

end Machine

end Sys2Proof
end

