-- ==== Sys2Proof/Certificates/Slice0/Obligations.lean ====
section
/-!
DEFINITION. Certificates/Slice0/Obligations: the statements for the provers, each about the machine and none about a program.
-/

open Sys2Proof Sys2Proof.Machine

/-! Encoding (spec/30_encoding.md). -/

/-- Decoding the two bytes of an instruction, whatever follows them, gives it back with every operand (spec/30_encoding.md R94, R101; spec/20_memory.md R63). -/
def Obligations.DecodeInvertsEncode : Prop :=
  ∀ (i : Instr) (rest : List Byte), decodeBytes (encodeBytes i ++ rest) = .instr i rest

/-- A word that decodes is the word of what it decodes to: no bit of a recognised word is dropped (spec/30_encoding.md R93, R101; that every literal digit must match is strict matching, the spec's decision D24, log 20). -/
def Obligations.EncodeInvertsDecode : Prop := ∀ (op : Word) (i : Instr), decode op = some i → encode i = op

/-- A recognised word matches its instruction's row by match and mask, an unrecognised word matches none, and no word matches two rows (spec/30_encoding.md R93, R94; strict matching is the spec's decision D24). -/
def Obligations.OneRowPerRecognisedWord : Prop :=
  ∀ op : Word,
    (∀ i, decode op = some i → (opcodeRow i.mnemonic).matches op = true) ∧
    (decode op = none → ∀ m, (opcodeRow m).matches op = false) ∧
    ∀ m m', (opcodeRow m).matches op = true → (opcodeRow m').matches op = true → m = m'

/-- The unrecognised words, family by family, are those of the table of spec/30_encoding.md R95 (strict matching is the spec's decision D24, and which low digits family 8 uses its presumption G5, log 20). -/
def Obligations.UnrecognisedWordsByFamily : Prop :=
  ∀ op : Word,
    decode op = none ↔
      (op.toNat / 0x1000 = 0x0 ∧ op ≠ 0x00E0 ∧ op ≠ 0x00EE) ∨
      ((op.toNat / 0x1000 = 0x5 ∨ op.toNat / 0x1000 = 0x9) ∧ fieldN op ≠ 0) ∨
      (op.toNat / 0x1000 = 0x8 ∧ fieldN op ∈ ([0x8, 0x9, 0xA, 0xB, 0xC, 0xD, 0xF] : List Nibble)) ∨
      (op.toNat / 0x1000 = 0xE ∧ fieldNN op ∉ ([0x9E, 0xA1] : List Byte)) ∨
      (op.toNat / 0x1000 = 0xF ∧
        fieldNN op ∉ ([0x07, 0x0A, 0x15, 0x18, 0x1E, 0x29, 0x33, 0x55, 0x65] : List Byte))

/-- Every instruction has a well-formed assembler line, which assembles, by match and fields, to the instruction's two bytes (spec/30_encoding.md R97, R98, R101; the syntax is the spec's decision D26). -/
def Obligations.InstructionLineAssembles : Prop :=
  ∀ i : Instr, i.line.wf = true ∧ assembleLine i.line = some (encodeBytes i)

/-- Every well-formed line of a mnemonic assembles to exactly one word, that of an instruction of the mnemonic's own row (spec/30_encoding.md R98, decision D26). -/
def Obligations.WellFormedLineAssemblesToItsRow : Prop :=
  ∀ (m : Mnemonic) (os : List AsmOperand), (AsmLine.ins m os).wf = true →
    ∃ i : Instr, i.mnemonic = m ∧ assembleLine (.ins m os) = some (encodeBytes i)

/-- Every word that R100 of spec/30_encoding.md and the examples of spec/41 to 45 write out decodes to the instruction it stands for, as do 8124, 8125, F233 and F515 of spec/95_test_vectors.md, so that every row has a word here; the bytes 70, 01 are 7001. That 5121, 00E1 and 01E0 decode to none is strict matching, the spec's decision D24 (log 20); the digits of 8121, 8122, 8123, 8126 and 8127 are its presumption G5 (log 20). -/
def Obligations.ExampleWordsDecode : Prop :=
  decode 0x8AB4 = some (.add 0xA 0xB) ∧ decode 0xD125 = some (.drw 1 2 5) ∧ decode 0xF265 = some (.ldm 2) ∧
  decode 0xB2FE = some (.jpv0 0x2FE) ∧ decode 0x5120 = some (.se 1 2) ∧ decode 0x00E0 = some .cls ∧
  decode 0x00EE = some .ret ∧ decode 0x1200 = some (.jp 0x200) ∧ decode 0x1ABC = some (.jp 0xABC) ∧
  decode 0x220A = some (.call 0x20A) ∧ decode 0x332A = some (.sei 3 0x2A) ∧ decode 0x432A = some (.snei 3 0x2A) ∧
  decode 0x9120 = some (.sne 1 2) ∧ decode 0xB300 = some (.jpv0 0x300) ∧ decode 0xBFFF = some (.jpv0 0xFFF) ∧
  decode 0x6A3C = some (.ldi 0xA 0x3C) ∧ decode 0x7001 = some (.addi 0 0x01) ∧ decode 0x8120 = some (.mov 1 2) ∧
  decode 0x8121 = some (.or 1 2) ∧ decode 0x8122 = some (.and 1 2) ∧ decode 0x8123 = some (.xor 1 2) ∧
  decode 0x8124 = some (.add 1 2) ∧ decode 0x8125 = some (.sub 1 2) ∧ decode 0x8126 = some (.shr 1 2) ∧
  decode 0x8127 = some (.subn 1 2) ∧ decode 0x812E = some (.shl 1 2) ∧ decode 0xC10F = some (.rnd 1 0x0F) ∧
  decode 0xA2F0 = some (.lda 0x2F0) ∧ decode 0xF21E = some (.adda 2) ∧ decode 0xF329 = some (.font 3) ∧
  decode 0xF233 = some (.bcd 2) ∧ decode 0xF255 = some (.stm 2) ∧ decode 0xD011 = some (.drw 0 1 1) ∧
  decode 0xE49E = some (.skp 4) ∧ decode 0xE4A1 = some (.sknp 4) ∧ decode 0xF30A = some (.waitk 3) ∧
  decode 0xF507 = some (.lddt 5) ∧ decode 0xF515 = some (.stdt 5) ∧ decode 0xF618 = some (.stst 6) ∧
  decode 0x5121 = none ∧ decode 0x00E1 = none ∧ decode 0x01E0 = none ∧
  decodeBytes [0x70, 0x01] = .instr (.addi 0 0x01) []

/-! The step (spec/40_step_cycle.md). -/

/-- When the machine is not halted and the two bytes at pc decode to an instruction, the step is that instruction's `exec` (on the state with `started` set, log 2), and it emits no diagnostic (spec/40_step_cycle.md R120 to R123). -/
def Obligations.StepRunsDecodedInstruction : Prop :=
  ∀ (s : State) (i : Instr), s.fault = none → s.pc.toNat + 1 ≤ 0x0FFF →
    decodeBytes [s.mem.read s.pc.toNat, s.mem.read (s.pc.toNat + 1)] = .instr i [] →
    step s = exec i { s with started := true } ∧ stepDiag s = none

/-- The word fetched is the byte at pc times 256 plus the byte at pc + 1, for an even or an odd pc (spec/20_memory.md R63; an odd pc is the spec's decision D9). -/
def Obligations.FetchIsBigEndian : Prop :=
  ∀ s : State, s.fetchWord.toNat = (s.mem.read s.pc.toNat).toNat * 256 + (s.mem.read (s.pc.toNat + 1)).toNat

/-- A step whose fetch is out of range takes FetchOutOfRange with pc recorded and kept, and no other step takes it (spec/20_memory.md R66, spec/60_exceptions.md R234; `fault` as a state element is the spec's decision D3). -/
def Obligations.FetchOutOfRangeFaults : Prop :=
  ∀ s : State, s.fault = none →
    (0x0FFF < s.pc.toNat + 1 →
      step s = .next { s with started := true, fault := some (.fetchOutOfRange s.pc) } ∧ stepDiag s = none) ∧
    (s.pc.toNat + 1 ≤ 0x0FFF → ∀ t w, step s = .next t → t.fault ≠ some (.fetchOutOfRange w))

/-- A step on an unrecognised word adds 2 to pc and emits the diagnostic of the word and its address; nothing else changes but `started`. Only such a step emits a diagnostic, so none emits one and raises a fatal condition (spec/40_step_cycle.md R124, R120; the form of the diagnostic is decision D25). -/
def Obligations.UnrecognisedWordAdvances : Prop :=
  ∀ s : State,
    (s.fault = none → s.pc.toNat + 1 ≤ 0x0FFF → decode s.fetchWord = none →
      step s = .next { s with started := true, pc := s.pc + 2 } ∧
      stepDiag s = some { op := s.fetchWord, addr := s.pc }) ∧
    ∀ d, stepDiag s = some d → s.fault = none ∧ s.pc.toNat + 1 ≤ 0x0FFF ∧ decode s.fetchWord = none

/-- An ended run stays as it is: a step of a halted machine changes nothing and emits nothing, and a step of an idle one, at a jump to itself, changes nothing but `started` (spec/40_step_cycle.md R127, spec/70_reset_and_hazards.md R292; decisions D3, D30). -/
def Obligations.EndedRunsStayAsTheyAre : Prop :=
  ∀ s : State,
    (Faulted s → step s = .next s ∧ stepDiag s = none) ∧
    (Idle s → step s = .next { s with started := true } ∧ (s.started = true → step s = .next s))

/-- Every instruction and every step answers a next state, on every state: none stops the model (spec/40_step_cycle.md R126). That an instruction or a step that raises a fatal condition answers a next state, `fault` set, and that a halted step answers one too, is the model's reading of the spec's decision D3 (log 12, DESIGN CHOICE). -/
def Obligations.EveryStepAnswersNext : Prop :=
  (∀ (i : Instr) (s : State), ∃ t, exec i s = .next t) ∧ ∀ s : State, ∃ t, step s = .next t

/-- Faults are precise: a step that raises a fatal condition changes `fault` and, but for `started`, nothing else (spec/40_step_cycle.md R125, spec/60_exceptions.md R241, decision D3). -/
def Obligations.FaultingStepKeepsAllElse : Prop :=
  ∀ s t : State, s.fault = none → step s = .next t → t.fault ≠ none →
    t = { s with started := true, fault := t.fault }

/-- A step of a running machine raises a fatal condition exactly when the program breaks one of (a) to (e) of spec/70_reset_and_hazards.md R286: no other step and no other instruction raises one (spec/60_exceptions.md R231, R240; rows 4 and 5 are decisions D6, D7; `fault` as a state element of a next state is decision D3, log 12). -/
def Obligations.StepFaultsExactlyWhenUnsafe : Prop :=
  ∀ s t : State, s.fault = none → step s = .next t → (t.fault = none ↔ StepSafe s)

/-! Control transfer (spec/41_control_flow.md). -/

/-- 1NNN: pc becomes NNN and nothing else changes; a jump to its own address changes nothing; a jump to 0xFFF is accepted and the next step faults with FetchOutOfRange (R130; that this step answers a next state with `fault` set is the spec's decision D3, log 12). -/
def Obligations.JumpSetsPc : Prop :=
  (∀ op : Word, op &&& 0xF000 = 0x1000 → decode op = some (.jp (fieldNNN op))) ∧
  ∀ (nnn : Addr) (s : State), ∃ t, exec (.jp nnn) s = .next t ∧ t.pc.toNat = nnn.toNat ∧ Frame [.pc] s t ∧
    (nnn.toNat = s.pc.toNat → t = s) ∧
    (nnn = 0xFFF → s.fault = none → ∃ u, step t = .next u ∧ u.fault = some (.fetchOutOfRange 0x0FFF))

/-- BNNN: pc becomes NNN + V0 as exact numbers, not masked, and nothing else changes (R138; not masking is decision D8). -/
def Obligations.JumpAddsV0 : Prop :=
  ∀ (nnn : Addr) (s : State), ∃ t, exec (.jpv0 nnn) s = .next t ∧
    t.pc.toNat = nnn.toNat + (s.readV 0).toNat ∧ Frame [.pc] s t

/-- 2NNN with room on the stack: entry sp becomes pc0 + 2, sp grows by 1, pc becomes NNN, every other entry and element is unchanged (R132; what is pushed is decision D10). -/
def Obligations.CallPushesReturnAddress : Prop :=
  ∀ (nnn : Addr) (s : State) (h : s.sp.val < 16), ∃ t, exec (.call nnn) s = .next t ∧
    t.stack[s.sp.val] = s.pc + 2 ∧ t.sp.val = s.sp.val + 1 ∧ t.pc.toNat = nnn.toNat ∧
    (∀ k : Fin 16, k.val ≠ s.sp.val → t.stack[k.val] = s.stack[k.val]) ∧ Frame [.stack, .sp, .pc] s t

/-- 00EE with an entry on the stack: pc becomes the top entry, sp falls by 1, and nothing else changes, the entry's bits included (R131; keeping the entry is decision D10). -/
def Obligations.ReturnPopsPc : Prop :=
  ∀ (s : State) (k : Fin 16), s.sp.val = k.val + 1 → ∃ t, exec .ret s = .next t ∧
    t.pc = s.stack[k.val] ∧ t.sp.val = k.val ∧ Frame [.sp, .pc] s t

/-- 2NNN on a full stack takes StackOverflow and 00EE on an empty one StackUnderflow, each with pc0 recorded and nothing else changed (spec/60_exceptions.md R232, R233; `fault` as a state element is decision D3). -/
def Obligations.StackFaults : Prop :=
  ∀ s : State,
    (∀ nnn, s.sp.val = 16 → exec (.call nnn) s = .next { s with fault := some (.stackOverflow s.pc) }) ∧
    (s.sp.val = 0 → exec .ret s = .next { s with fault := some (.stackUnderflow s.pc) })

/-- A call and the return that follows it land on the address after the call, with sp and the live entries as before (R131, R132; source §8; what the entry holds is decision D10, log 19). -/
def Obligations.CallThenReturn : Prop :=
  ∀ (nnn : Addr) (s t : State), s.sp.val < 16 → exec (.call nnn) s = .next t →
    ∃ u, exec .ret t = .next u ∧ u.pc = s.pc + 2 ∧ u.sp = s.sp ∧
      (∀ k : Fin 16, k.val < s.sp.val → u.stack[k.val] = s.stack[k.val]) ∧ Frame [.stack, .pc] s u

/-- 3XNN and 4XNN: pc0 + 4 if VX equals, respectively differs from, NN, else pc0 + 2; nothing but pc changes (R133, R134). -/
def Obligations.SkipOnImmediate : Prop :=
  (∀ op : Word,
    (op &&& 0xF000 = 0x3000 → decode op = some (.sei (fieldX op) (fieldNN op))) ∧
    (op &&& 0xF000 = 0x4000 → decode op = some (.snei (fieldX op) (fieldNN op)))) ∧
  ∀ (x : Reg) (nn : Byte) (s : State),
    (∃ t, exec (.sei x nn) s = .next t ∧ Frame [.pc] s t ∧
      (s.readV x = nn → t.pc = s.pc + 4) ∧ (s.readV x ≠ nn → t.pc = s.pc + 2)) ∧
    (∃ t, exec (.snei x nn) s = .next t ∧ Frame [.pc] s t ∧
      (s.readV x ≠ nn → t.pc = s.pc + 4) ∧ (s.readV x = nn → t.pc = s.pc + 2))

/-- 5XY0 and 9XY0: pc0 + 4 if VX equals, respectively differs from, VY, else pc0 + 2; nothing but pc changes; X = Y always, respectively never, skips; the other low digits are unrecognised (R135, R136; strict matching is the spec's decision D24). -/
def Obligations.SkipOnRegisters : Prop :=
  (∀ op : Word,
    (op &&& 0xF00F = 0x5000 → decode op = some (.se (fieldX op) (fieldY op))) ∧
    (op &&& 0xF00F = 0x9000 → decode op = some (.sne (fieldX op) (fieldY op))) ∧
    (op &&& 0xF000 = 0x5000 ∨ op &&& 0xF000 = 0x9000 → op &&& 0x000F ≠ 0 → decode op = none)) ∧
  ∀ (x y : Reg) (s : State),
    (∃ t, exec (.se x y) s = .next t ∧ Frame [.pc] s t ∧
      (s.readV x = s.readV y → t.pc = s.pc + 4) ∧ (s.readV x ≠ s.readV y → t.pc = s.pc + 2) ∧
      (x = y → t.pc = s.pc + 4)) ∧
    (∃ t, exec (.sne x y) s = .next t ∧ Frame [.pc] s t ∧
      (s.readV x ≠ s.readV y → t.pc = s.pc + 4) ∧ (s.readV x = s.readV y → t.pc = s.pc + 2) ∧
      (x = y → t.pc = s.pc + 2))

/-! Register load, arithmetic and logic (spec/42_alu.md). -/

/-- 6XNN and 7XNN: VX becomes NN, respectively VX + NN modulo 256; no other register changes, VF included unless X = 15 (R151, R152). -/
def Obligations.LoadAndAddImmediate : Prop :=
  (∀ op : Word,
    (op &&& 0xF000 = 0x6000 → decode op = some (.ldi (fieldX op) (fieldNN op))) ∧
    (op &&& 0xF000 = 0x7000 → decode op = some (.addi (fieldX op) (fieldNN op)))) ∧
  ∀ (x : Reg) (nn : Byte) (s : State),
    (∃ t, exec (.ldi x nn) s = .next t ∧ t.readV x = nn ∧ t.pc = s.pc + 2 ∧ RegFrame [x] s t ∧ Frame [.V, .pc] s t) ∧
    (∃ t, exec (.addi x nn) s = .next t ∧ (t.readV x).toNat = ((s.readV x).toNat + nn.toNat) % 256 ∧
      t.pc = s.pc + 2 ∧ RegFrame [x] s t ∧ Frame [.V, .pc] s t)

/-- 8XY0: VX becomes VY; no other register changes, VY and, unless X = 15, VF included; X = Y changes nothing but pc (R153). -/
def Obligations.AssignRegister : Prop :=
  (∀ op : Word, op &&& 0xF00F = 0x8000 → decode op = some (.mov (fieldX op) (fieldY op))) ∧
  ∀ (x y : Reg) (s : State), ∃ t, exec (.mov x y) s = .next t ∧ t.readV x = s.readV y ∧ t.readV y = s.readV y ∧
    t.pc = s.pc + 2 ∧ RegFrame [x] s t ∧ Frame [.V, .pc] s t ∧ (x = y → Frame [.pc] s t)

/-- 8XY1 to 8XY3: VX becomes VX or VY, VX and VY, VX xor VY, bit by bit; no other register changes, VF included unless X = 15; X = Y leaves VX unchanged, and with xor makes it 0 (R154 to R156; the low digits 1, 2, 3 are the spec's presumption, log 20). -/
def Obligations.BitwiseLogic : Prop :=
  (∀ op : Word,
    (op &&& 0xF00F = 0x8001 → decode op = some (.or (fieldX op) (fieldY op))) ∧
    (op &&& 0xF00F = 0x8002 → decode op = some (.and (fieldX op) (fieldY op))) ∧
    (op &&& 0xF00F = 0x8003 → decode op = some (.xor (fieldX op) (fieldY op)))) ∧
  ∀ (x y : Reg) (s : State),
    (∃ t, exec (.or x y) s = .next t ∧
      (∀ k, k < 8 → (t.readV x).getLsbD k = ((s.readV x).getLsbD k || (s.readV y).getLsbD k)) ∧
      (x = y → t.readV x = s.readV x) ∧ t.pc = s.pc + 2 ∧ RegFrame [x] s t ∧ Frame [.V, .pc] s t) ∧
    (∃ t, exec (.and x y) s = .next t ∧
      (∀ k, k < 8 → (t.readV x).getLsbD k = ((s.readV x).getLsbD k && (s.readV y).getLsbD k)) ∧
      (x = y → t.readV x = s.readV x) ∧ t.pc = s.pc + 2 ∧ RegFrame [x] s t ∧ Frame [.V, .pc] s t) ∧
    (∃ t, exec (.xor x y) s = .next t ∧
      (∀ k, k < 8 → (t.readV x).getLsbD k = ((s.readV x).getLsbD k ^^ (s.readV y).getLsbD k)) ∧
      (x = y → t.readV x = 0) ∧ t.pc = s.pc + 2 ∧ RegFrame [x] s t ∧ Frame [.V, .pc] s t)

/-- 8XY4, 8XY5, 8XY7: VX becomes the sum, the difference, the reverse difference modulo 256 and VF the carry, respectively the no-borrow, 1 or 0; with X = 15 VF holds the flag; nothing else changes (R157, R158, R160; the flag being written last is decision D11). -/
def Obligations.AddAndSubtractWithFlag : Prop :=
  ∀ (x y : Reg) (s : State),
    (∃ t, exec (.add x y) s = .next t ∧
      (x ≠ vf → (t.readV x).toNat = ((s.readV x).toNat + (s.readV y).toNat) % 256) ∧
      t.readV vf = (if (s.readV x).toNat + (s.readV y).toNat > 255 then 1 else 0) ∧
      t.pc = s.pc + 2 ∧ RegFrame [x, vf] s t ∧ Frame [.V, .pc] s t) ∧
    (∃ t, exec (.sub x y) s = .next t ∧
      (x ≠ vf → (t.readV x).toNat = ((s.readV x).toNat + 256 - (s.readV y).toNat) % 256) ∧
      t.readV vf = (if (s.readV x).toNat ≥ (s.readV y).toNat then 1 else 0) ∧
      t.pc = s.pc + 2 ∧ RegFrame [x, vf] s t ∧ Frame [.V, .pc] s t) ∧
    (∃ t, exec (.subn x y) s = .next t ∧
      (x ≠ vf → (t.readV x).toNat = ((s.readV y).toNat + 256 - (s.readV x).toNat) % 256) ∧
      t.readV vf = (if (s.readV y).toNat ≥ (s.readV x).toNat then 1 else 0) ∧
      t.pc = s.pc + 2 ∧ RegFrame [x, vf] s t ∧ Frame [.V, .pc] s t)

/-- 8XY6 and 8XYE: VX becomes half, respectively twice modulo 256, of VX, whatever Y is, and VF the old bit 0, respectively bit 7; with X = 15 VF holds the flag; nothing else changes (R159, R161; shifting VX is decision D12, the flag being written last D11). -/
def Obligations.ShiftWithFlag : Prop :=
  ∀ (x y : Reg) (s : State),
    (∃ t, exec (.shr x y) s = .next t ∧ (x ≠ vf → (t.readV x).toNat = (s.readV x).toNat / 2) ∧
      (t.readV vf).toNat = (s.readV x).toNat % 2 ∧ t.pc = s.pc + 2 ∧ RegFrame [x, vf] s t ∧ Frame [.V, .pc] s t) ∧
    (∃ t, exec (.shl x y) s = .next t ∧ (x ≠ vf → (t.readV x).toNat = (s.readV x).toNat * 2 % 256) ∧
      (t.readV vf).toNat = (s.readV x).toNat / 128 ∧ t.pc = s.pc + 2 ∧ RegFrame [x, vf] s t ∧ Frame [.V, .pc] s t)

/-- CXNN: VX becomes a free byte, a fresh one at each draw, under the mask NN: every bit of VX that is 0 in NN is 0; no flag, nothing else changes but the model's own count of draws (R163, R164; the free value is decision D21, log 3). -/
def Obligations.RandomByteUnderMask : Prop :=
  ∀ (x : Reg) (nn : Byte) (s : State), ∃ t, exec (.rnd x nn) s = .next t ∧
    t.readV x = Config.randByte s.draws &&& nn ∧ t.draws = s.draws + 1 ∧
    (∀ k, nn.getLsbD k = false → (t.readV x).getLsbD k = false) ∧
    t.pc = s.pc + 2 ∧ RegFrame [x] s t ∧ Frame [.V, .pc, .draws] s t

/-- The settings that are not the default: with SHIFT_SOURCE = VY 8XY6 and 8XYE take VY's value and bit; with BLOCK_INC_I FX55 and FX65 leave I + X + 1 in I (decisions D12, D13 of spec/92_eei_decisions.md, log 6, 7; that VF holds the flag at X = 15 too is the flag being written last, D11, log 11). -/
def Obligations.OtherParameterSettings : Prop :=
  ∀ (x y : Reg) (s : State),
    (∃ t, execShrWith { params with shiftSource := .vy } x y s = .next t ∧
      (x ≠ vf → (t.readV x).toNat = (s.readV y).toNat / 2) ∧ (t.readV vf).toNat = (s.readV y).toNat % 2) ∧
    (∃ t, execShlWith { params with shiftSource := .vy } x y s = .next t ∧
      (x ≠ vf → (t.readV x).toNat = (s.readV y).toNat * 2 % 256) ∧
      (t.readV vf).toNat = (s.readV y).toNat / 128) ∧
    (s.I.toNat + x.val ≤ 0x0FFF →
      (∃ t, execStmWith { params with blockIncI := true } x s = .next t ∧ t.I.toNat = s.I.toNat + x.val + 1) ∧
      (∃ t, execLdmWith { params with blockIncI := true } x s = .next t ∧ t.I.toNat = s.I.toNat + x.val + 1))

/-! Index register and memory transfer (spec/43_index_memory.md). -/

/-- ANNN: I becomes NNN, its high four bits 0; nothing else changes but pc (R181). -/
def Obligations.LoadIndex : Prop :=
  (∀ op : Word, op &&& 0xF000 = 0xA000 → decode op = some (.lda (fieldNNN op))) ∧
  ∀ (nnn : Addr) (s : State), ∃ t, exec (.lda nnn) s = .next t ∧ t.I.toNat = nnn.toNat ∧ t.pc = s.pc + 2 ∧
    Frame [.I, .pc] s t

/-- FX1E: I becomes the sum modulo 65536, not masked to 12 bits, and VF says whether the true sum exceeds 0x0FFF; with X = 15 the old VF is the addend and VF ends as the flag; nothing else changes (R182; what the flag reports is decision D14, the flag being written last, over VX at X = 15, D11, log 11). -/
def Obligations.AddToIndex : Prop :=
  ∀ (x : Reg) (s : State), ∃ t, exec (.adda x) s = .next t ∧
    t.I.toNat = (s.I.toNat + (s.readV x).toNat) % 65536 ∧
    t.readV vf = (if s.I.toNat + (s.readV x).toNat > 0x0FFF then 1 else 0) ∧
    t.pc = s.pc + 2 ∧ RegFrame [vf] s t ∧ Frame [.I, .V, .pc] s t

/-- FX29: I becomes five times VX, VX not masked; nothing else changes but pc (R183, decision D15). -/
def Obligations.FontAddress : Prop :=
  ∀ (x : Reg) (s : State), ∃ t, exec (.font x) s = .next t ∧ t.I.toNat = (s.readV x).toNat * 5 ∧
    t.pc = s.pc + 2 ∧ Frame [.I, .pc] s t

/-- FX33 inside memory: the bytes at I, I + 1, I + 2 become the hundreds, tens and ones of VX, no other byte changes, nothing else changes but pc (R184). -/
def Obligations.DecimalDigitsStored : Prop :=
  ∀ (x : Reg) (s : State), s.mem.wf = true → s.I.toNat + 2 ≤ 0x0FFF → ∃ t, exec (.bcd x) s = .next t ∧
    (t.mem.read s.I.toNat).toNat = (s.readV x).toNat / 100 ∧
    (t.mem.read (s.I.toNat + 1)).toNat = (s.readV x).toNat / 10 % 10 ∧
    (t.mem.read (s.I.toNat + 2)).toNat = (s.readV x).toNat % 10 ∧
    MemFrame s.I.toNat 3 s t ∧ t.pc = s.pc + 2 ∧ Frame [.mem, .pc] s t

/-- FX55 inside memory: byte I + i becomes Vi for i = 0..X, no other byte changes, I is unchanged, nothing else changes but pc (R185; I unchanged is decision D13). -/
def Obligations.RegistersStored : Prop :=
  ∀ (x : Reg) (s : State), s.mem.wf = true → s.I.toNat + x.val ≤ 0x0FFF → ∃ t, exec (.stm x) s = .next t ∧
    (∀ r : Reg, r ≤ x → t.mem.read (s.I.toNat + r.val) = s.readV r) ∧
    MemFrame s.I.toNat (x.val + 1) s t ∧ t.pc = s.pc + 2 ∧ Frame [.mem, .pc] s t

/-- FX65 inside memory: Vi becomes the byte at I + i for i = 0..X, the registers above X and everything else but pc are unchanged (R186; I unchanged is decision D13). -/
def Obligations.RegistersLoaded : Prop :=
  ∀ (x : Reg) (s : State), s.I.toNat + x.val ≤ 0x0FFF → ∃ t, exec (.ldm x) s = .next t ∧
    (∀ r : Reg, r ≤ x → t.readV r = s.mem.read (s.I.toNat + r.val)) ∧
    (∀ r : Reg, x < r → t.readV r = s.readV r) ∧ t.pc = s.pc + 2 ∧ Frame [.V, .pc] s t

/-- FX33, FX55, FX65 and DXYN with N at least 1 whose last address exceeds 0x0FFF take DataOutOfRange with I recorded and nothing else changed (spec/20_memory.md R67, spec/60_exceptions.md R235; the condition is decision D6). That pc0 is recorded beside I is the table of R231 as log 13 reads it (DESIGN CHOICE), and the fault as a next state is decision D3 (log 12). -/
def Obligations.DataOutOfRangeFaults : Prop :=
  ∀ (x y : Reg) (n : Nibble) (s : State),
    (0x0FFF < s.I.toNat + 2 → exec (.bcd x) s = .next { s with fault := some (.dataOutOfRange s.I s.pc) }) ∧
    (0x0FFF < s.I.toNat + x.val →
      exec (.stm x) s = .next { s with fault := some (.dataOutOfRange s.I s.pc) } ∧
      exec (.ldm x) s = .next { s with fault := some (.dataOutOfRange s.I s.pc) }) ∧
    (1 ≤ n.toNat → 0x0FFF < s.I.toNat + n.toNat - 1 →
      exec (.drw x y n) s = .next { s with fault := some (.dataOutOfRange s.I s.pc) })

/-- A byte stored is seen by the very next fetch, wherever it lies: after FX33, and after FX55, the word the next step fetches takes each of its two bytes from what was stored, if its address is among the stored ones, and else from memory as it was (spec/20_memory.md R72; R184, R185). -/
def Obligations.StoredBytesAreFetchedNext : Prop :=
  ∀ (x : Reg) (s : State), s.mem.wf = true →
    (s.I.toNat + 2 ≤ 0x0FFF → ∃ t, exec (.bcd x) s = .next t ∧ t.pc = s.pc + 2 ∧
      t.fetchWord.toNat = overlaid s 3 (decimalDigit (s.readV x)) t.pc.toNat * 256 +
        overlaid s 3 (decimalDigit (s.readV x)) (t.pc.toNat + 1)) ∧
    (s.I.toNat + x.val ≤ 0x0FFF → ∃ t, exec (.stm x) s = .next t ∧ t.pc = s.pc + 2 ∧
      t.fetchWord.toNat = overlaid s (x.val + 1) (registerNumber s) t.pc.toNat * 256 +
        overlaid s (x.val + 1) (registerNumber s) (t.pc.toNat + 1))

/-! Display (spec/44_display.md). -/

/-- 00E0: every pixel 0, `redraw` true, whatever they were; VF and everything else but pc unchanged (R201). -/
def Obligations.ClearScreen : Prop :=
  (∀ op : Word, op &&& 0xFFFF = 0x00E0 → decode op = some .cls) ∧
  ∀ s : State, ∃ t, exec .cls s = .next t ∧ (∀ u v, pixelAt t.fb u v = false) ∧ t.redraw = true ∧
    t.pc = s.pc + 2 ∧ Frame [.fb, .redraw, .pc] s t

/-- DXYN inside memory: pixel (u, v) is inverted exactly if the sprite bit that reaches it, coordinates modulo 64 and 32 and bit 7 leftmost, is 1; VF says whether a pixel went from 1 to 0; `redraw` is set; nothing else changes but pc (R202; bit order decision D17, VF = 0 decision D16). -/
def Obligations.SpriteDrawn : Prop :=
  ∀ (x y : Reg) (n : Nibble) (s : State), (n.toNat = 0 ∨ s.I.toNat + n.toNat - 1 ≤ 0x0FFF) →
    ∃ t, exec (.drw x y n) s = .next t ∧
      (∀ (u : Fin 64) (v : Fin 32) (col row : Nat), col < 64 → row < 32 →
        u.val = ((s.readV x).toNat + col) % 64 → v.val = ((s.readV y).toNat + row) % 32 →
        pixelAt t.fb u v = (pixelAt s.fb u v ^^
          (decide (col < 8) && decide (row < n.toNat) && (s.mem.read (s.I.toNat + row)).getLsbD (7 - col)))) ∧
      ((∃ u v, pixelAt s.fb u v = true ∧ pixelAt t.fb u v = false) → t.readV vf = 1) ∧
      (¬ (∃ u v, pixelAt s.fb u v = true ∧ pixelAt t.fb u v = false) → t.readV vf = 0) ∧
      t.redraw = true ∧ t.pc = s.pc + 2 ∧ RegFrame [vf] s t ∧ Frame [.V, .fb, .redraw, .pc] s t

/-- Drawing the same sprite twice at the same coordinates restores every pixel; if the first draw hit nothing and changed a pixel, the second sets VF to 1 (source §8; R202). -/
def Obligations.SpriteDrawnTwice : Prop :=
  ∀ (x y : Reg) (n : Nibble) (s t : State), x ≠ vf → y ≠ vf → (n.toNat = 0 ∨ s.I.toNat + n.toNat - 1 ≤ 0x0FFF) →
    exec (.drw x y n) s = .next t →
    ∃ w, exec (.drw x y n) t = .next w ∧ w.fb = s.fb ∧
      (t.readV vf = 0 → (∃ u v, pixelAt t.fb u v ≠ pixelAt s.fb u v) → w.readV vf = 1)

/-! Keys and timers (spec/45_keys_timers.md). -/

/-- EX9E and EXA1 with VX naming a key: pc0 + 4 if it is pressed, respectively not pressed, else pc0 + 2; nothing but pc changes, the latch included (R211, R212). -/
def Obligations.SkipOnKey : Prop :=
  ∀ (x : Reg) (k : Key) (s : State), (s.readV x).toNat = k.val →
    (∃ t, exec (.skp x) s = .next t ∧ Frame [.pc] s t ∧
      (s.keyDown k = true → t.pc = s.pc + 4) ∧ (s.keyDown k = false → t.pc = s.pc + 2)) ∧
    (∃ t, exec (.sknp x) s = .next t ∧ Frame [.pc] s t ∧
      (s.keyDown k = false → t.pc = s.pc + 4) ∧ (s.keyDown k = true → t.pc = s.pc + 2))

/-- EX9E and EXA1 with VX above 15 take KeyIndexOutOfRange with VX recorded and nothing else changed (R210, spec/60_exceptions.md R236; the condition is decision D7). That pc0 is recorded beside VX is the table of R231 as log 13 reads it (DESIGN CHOICE), and the fault as a next state is decision D3 (log 12). -/
def Obligations.KeyIndexOutOfRangeFaults : Prop :=
  ∀ (x : Reg) (s : State), 15 < (s.readV x).toNat →
    exec (.skp x) s = .next { s with fault := some (.keyIndexOutOfRange (s.readV x) s.pc) } ∧
    exec (.sknp x) s = .next { s with fault := some (.keyIndexOutOfRange (s.readV x) s.pc) }

/-- FX0A: with no key pressed nothing changes at all; with one pressed at least, VX becomes the index of a pressed key and pc advances in that same step, nothing else changing but the model's own count of draws (R213; which key is free, and the test being of the level, are decision D22, log 4). -/
def Obligations.KeyWait : Prop :=
  (∀ op : Word, op &&& 0xF0FF = 0xF00A → decode op = some (.waitk (fieldX op))) ∧
  ∀ (x : Reg) (s : State),
    ((∀ k, s.keyDown k = false) → exec (.waitk x) s = .next s) ∧
    ((∃ k, s.keyDown k = true) → ∃ t k, exec (.waitk x) s = .next t ∧ s.keyDown k = true ∧
      (t.readV x).toNat = k.val ∧ t.pc = s.pc + 2 ∧ RegFrame [x] s t ∧ Frame [.V, .pc, .draws] s t)

/-- FX07, FX15, FX18: VX becomes DT; DT becomes VX; ST becomes VX; nothing else changes but pc, `tone` included (R215, R216, R217). -/
def Obligations.TimerTransfers : Prop :=
  (∀ op : Word,
    (op &&& 0xF0FF = 0xF007 → decode op = some (.lddt (fieldX op))) ∧
    (op &&& 0xF0FF = 0xF015 → decode op = some (.stdt (fieldX op))) ∧
    (op &&& 0xF0FF = 0xF018 → decode op = some (.stst (fieldX op)))) ∧
  ∀ (x : Reg) (s : State),
    (∃ t, exec (.lddt x) s = .next t ∧ t.readV x = s.DT ∧ t.pc = s.pc + 2 ∧ RegFrame [x] s t ∧ Frame [.V, .pc] s t) ∧
    (∃ t, exec (.stdt x) s = .next t ∧ t.DT = s.readV x ∧ t.pc = s.pc + 2 ∧ Frame [.DT, .pc] s t) ∧
    (∃ t, exec (.stst x) s = .next t ∧ t.ST = s.readV x ∧ t.pc = s.pc + 2 ∧ Frame [.ST, .pc] s t)

/-! The host's operations (spec/60_exceptions.md, spec/70_reset_and_hazards.md). -/

/-- `tick_timers`: `tone` says whether ST was above 0, each timer above 0 falls by 1 and one at 0 stays 0, nothing else changes, also while halted (R244, R245; while halted is decision D4). -/
def Obligations.TickCountsDown : Prop :=
  ∀ s : State, ∃ t, operate .tickTimers s = .next t ∧ (t.tone = true ↔ s.ST.toNat > 0) ∧
    t.DT.toNat = s.DT.toNat - 1 ∧ t.ST.toNat = s.ST.toNat - 1 ∧ Frame [.tone, .DT, .ST] s t

/-- `clear_redraw` makes `redraw` false and `set_key(k, b)` makes `key[k]` b; neither changes anything else, also while halted (R248, R249; while halted is decision D4). -/
def Obligations.SetKeyAndClearRedraw : Prop :=
  ∀ (s : State) (k : Key) (b : Bool),
    (∃ t, operate .clearRedraw s = .next t ∧ t.redraw = false ∧ Frame [.redraw] s t) ∧
    (∃ t, operate (.setKey k b) s = .next t ∧ t.keyDown k = b ∧ (∀ j, j ≠ k → t.keyDown j = s.keyDown j) ∧
      Frame [.key] s t)

/-- `reset` puts every element at its value of spec/10_state.md R40, whatever the state was, leaves the random source alone, and a second reset changes nothing (spec/70_reset_and_hazards.md R280, R281; FONT is decision D19, `fault` D3, `tone` D27; `started` and `draws` are log 2, 3). -/
def Obligations.ResetValues : Prop :=
  ∀ s : State, ∃ t, operate .reset s = .next t ∧
    (∀ (a : Nat) (h : a < 80), t.mem.read a = params.font[a]) ∧ (∀ a, 80 ≤ a → t.mem.read a = 0) ∧
    (∀ r, t.readV r = 0) ∧ t.I = 0 ∧ t.pc = 0x200 ∧ (∀ k : Fin 16, t.stack[k.val] = 0) ∧ t.sp.val = 0 ∧
    t.DT = 0 ∧ t.ST = 0 ∧ (∀ u v, pixelAt t.fb u v = false) ∧ (∀ k, t.keyDown k = false) ∧ t.redraw = false ∧
    t.fault = none ∧ t.tone = false ∧ t.started = false ∧ t.draws = s.draws ∧ operate .reset t = .next t

/-- `load` before the first step: up to 3584 bytes are copied verbatim from 0x200 and nothing else changes; more are an error and change nothing; after a step it is refused (spec/70_reset_and_hazards.md R282; the refusal is decision D28). -/
def Obligations.LoadCopiesProgram : Prop :=
  ∀ (s : State) (bytes : List Byte), s.mem.wf = true →
    (s.started = false → bytes.length ≤ 3584 → ∃ t, operate (.load bytes) s = .next t ∧
      events (.load bytes) s = [.loaded .ok] ∧
      (∀ j, j < bytes.length → t.mem.read (0x200 + j) = bytes.getD j 0) ∧
      MemFrame 0x200 bytes.length s t ∧ Frame [.mem] s t) ∧
    (s.started = false → 3584 < bytes.length → operate (.load bytes) s = .next s ∧
      events (.load bytes) s = [.loaded (.outOfRange bytes.length)]) ∧
    (s.started = true → operate (.load bytes) s = .refused .loadAfterStep)

/-! Invariants and whole-machine rules. -/

/-- The invariant of spec/10_state.md R41 holds after reset. -/
def Obligations.InvariantAtReset : Prop := State.reset.Inv

/-- Every step keeps the invariant of spec/10_state.md R41: canonical memory, pc at most 0x10FE, live stack entries in 0x0002..0x1000. -/
def Obligations.InvariantKeptByStep : Prop := ∀ s t : State, s.Inv → step s = .next t → t.Inv

/-- Every run of the host's operations, in any interleaving, keeps the invariant (spec/10_state.md R41, spec/60_exceptions.md R251). -/
def Obligations.InvariantKeptByRuns : Prop :=
  ∀ (ops : List HostOp) (s t : State), s.Inv → runOps ops s = .next t → t.Inv

/-- Once set, `fault` stays as it is through every run without a reset, and with it V, I, pc, the stack, sp and the framebuffer; memory too, once a step has happened (spec/10_state.md R32, R41, spec/60_exceptions.md R242; decisions D3, D4). -/
def Obligations.FaultPersistsUntilReset : Prop :=
  ∀ (ops : List HostOp) (s t : State), Faulted s → (∀ op ∈ ops, op.isReset = false) → runOps ops s = .next t →
    t.fault = s.fault ∧ Frame [.mem, .DT, .ST, .key, .redraw, .tone] s t ∧
    (s.started = true → SameElem s t .mem)

/-- Through every run without a reset and without an executed FX15, DT falls by one a tick down to 0, whatever steps, key writes and clears lie between (source §8; spec/60_exceptions.md R244; that ticks count while halted is decision D4). -/
def Obligations.DelayTimerCountsTicks : Prop :=
  ∀ (ops : List HostOp) (s t : State), NoTimerWrite ops s → runOps ops s = .next t →
    t.DT.toNat = s.DT.toNat - tickCount ops

/-- No step writes the key latch or `tone`, none clears `redraw`, and only FX15 and FX18 write the timers (spec/40_step_cycle.md R126; spec/10_state.md R27, R29, R30, R33). -/
def Obligations.StepLeavesHostElements : Prop :=
  ∀ s t : State, step s = .next t →
    SameElem s t .key ∧ SameElem s t .tone ∧ (s.redraw = true → t.redraw = true) ∧
    (SameElem s t .DT ∨ ∃ x, Executes s (.stdt x)) ∧ (SameElem s t .ST ∨ ∃ x, Executes s (.stst x))

/-- Each element is written only by the instructions the spec names: pixels and `redraw` by 00E0 and DXYN, memory by FX33 and FX55, I by ANNN, FX1E and FX29, stack entries by 2NNN, sp by 2NNN and 00EE (spec/10_state.md R23, R25, R26, R28; spec/20_memory.md R65; spec/44_display.md R203; that FX55 and FX65 leave I is decision D13, log 7, and that 00EE leaves the stack entries D10, log 19). -/
def Obligations.ElementsAndTheirWriters : Prop :=
  ∀ s t : State, step s = .next t →
    ((SameElem s t .fb ∧ SameElem s t .redraw) ∨ Executes s .cls ∨ ∃ x y n, Executes s (.drw x y n)) ∧
    (SameElem s t .mem ∨ ∃ x, Executes s (.bcd x) ∨ Executes s (.stm x)) ∧
    (SameElem s t .I ∨ (∃ nnn, Executes s (.lda nnn)) ∨ ∃ x, Executes s (.adda x) ∨ Executes s (.font x)) ∧
    (SameElem s t .stack ∨ ∃ nnn, Executes s (.call nnn)) ∧
    (SameElem s t .sp ∨ Executes s .ret ∨ ∃ nnn, Executes s (.call nnn))

/-- A step changes a register only if the instruction it executes names it as its destination or sets the flag in it (spec/10_state.md R21, R22). -/
def Obligations.RegistersAndTheirWriters : Prop :=
  ∀ (s t : State) (r : Reg), step s = .next t → t.readV r = s.readV r ∨ ∃ i, Executes s i ∧ WritesReg i r

/-- `redraw` has no effect on the core's own behaviour: two states that differ in it alone step to states that differ at most in it, with the same diagnostic (spec/10_state.md R30). -/
def Obligations.RedrawIsUnobserved : Prop :=
  ∀ s t s' : State, SameButRedraw s t → step s = .next s' →
    stepDiag t = stepDiag s ∧ ∃ t', step t = .next t' ∧ SameButRedraw s' t'

/-- Dead stack entries are never read: two states that differ in them alone step to states that differ at most in dead entries, with the same diagnostic (spec/10_state.md R25). -/
def Obligations.DeadStackEntriesAreUnobserved : Prop :=
  ∀ s t s' : State, SameButDeadStack s t → step s = .next s' →
    stepDiag t = stepDiag s ∧ ∃ t', step t = .next t' ∧ SameButDeadStack s' t'

/-- Memories in canonical form that read the same at every address are the same data (log 14; spec/20_memory.md R60, R65). -/
def Obligations.CanonicalMemoryIsExtensional : Prop :=
  ∀ m m' : Memory, m.wf = true → m'.wf = true → (∀ a, m.read a = m'.read a) → m = m'
end

