-- ==== Sys2Proof/Laws/Decode.lean ====
section
/-!
SUPPORT. Laws/Decode: the digits of a word and the word of its digits agree, and the same for registers, immediates, addresses and bytes.
-/

namespace Sys2Proof

@[simp] theorem digitsOf_wordOf (d : Digits) : digitsOf (wordOf d) = d := by
  obtain ⟨f, x, y, n⟩ := d
  simp only [digitsOf, wordOf, Digits.mk.injEq]
  refine ⟨?_, ?_, ?_, ?_⟩ <;>
  · apply BitVec.eq_of_getLsbD_eq
    intro i hi
    simp only [BitVec.getLsbD_extractLsb', BitVec.getLsbD_append]
    rcases i with _ | _ | _ | _ | i
    all_goals simp

@[simp] theorem wordOf_digitsOf (op : Word) : wordOf (digitsOf op) = op := by
  apply BitVec.eq_of_getLsbD_eq
  intro i hi
  simp only [digitsOf, wordOf, BitVec.getLsbD_extractLsb', BitVec.getLsbD_append]
  rcases i with _ | _ | _ | _ | _ | _ | _ | _ | _ | _ | _ | _ | _ | _ | _ | _ | i
  all_goals simp

/-- Words are masked digit by digit. -/
theorem wordOf_and (a b : Digits) :
    wordOf a &&& wordOf b = wordOf { f := a.f &&& b.f, x := a.x &&& b.x, y := a.y &&& b.y, n := a.n &&& b.n } :=
  BitVec.and_append.trans
    (congrArg (· ++ (a.n &&& b.n)) (BitVec.and_append.trans (congrArg (· ++ (a.y &&& b.y)) BitVec.and_append)))

@[simp] theorem regOf_regDigit (r : Reg) : regOf (regDigit r) = r := rfl

@[simp] theorem regDigit_regOf (d : Nibble) : regDigit (regOf d) = d := rfl

@[simp] theorem immOf_digits (nn : Byte) : immOf (highDigit nn) (lowDigit nn) = nn := by
  apply BitVec.eq_of_getLsbD_eq
  intro i hi
  simp only [immOf, highDigit, lowDigit, BitVec.getLsbD_extractLsb', BitVec.getLsbD_append]
  rcases i with _ | _ | _ | _ | _ | _ | _ | _ | i
  all_goals simp

@[simp] theorem highDigit_immOf (y n : Nibble) : highDigit (immOf y n) = y := by
  apply BitVec.eq_of_getLsbD_eq
  intro i hi
  simp only [immOf, highDigit, BitVec.getLsbD_extractLsb', BitVec.getLsbD_append]
  rcases i with _ | _ | _ | _ | i
  all_goals simp

@[simp] theorem lowDigit_immOf (y n : Nibble) : lowDigit (immOf y n) = n := by
  apply BitVec.eq_of_getLsbD_eq
  intro i hi
  simp only [immOf, lowDigit, BitVec.getLsbD_extractLsb', BitVec.getLsbD_append]
  rcases i with _ | _ | _ | _ | i
  all_goals simp

@[simp] theorem addrOf_digits (nnn : Addr) :
    addrOf (nnn.extractLsb' 8 4) (nnn.extractLsb' 4 4) (nnn.extractLsb' 0 4) = nnn := by
  apply BitVec.eq_of_getLsbD_eq
  intro i hi
  simp only [addrOf, BitVec.getLsbD_extractLsb', BitVec.getLsbD_append]
  rcases i with _ | _ | _ | _ | _ | _ | _ | _ | _ | _ | _ | _ | i
  all_goals simp

@[simp] theorem digitsA_addrOf (f x y n : Nibble) : digitsA f (addrOf x y n) = { f := f, x := x, y := y, n := n } := by
  simp only [digitsA, Digits.mk.injEq, true_and]
  refine ⟨?_, ?_, ?_⟩ <;>
  · apply BitVec.eq_of_getLsbD_eq
    intro i hi
    simp only [addrOf, BitVec.getLsbD_extractLsb', BitVec.getLsbD_append]
    rcases i with _ | _ | _ | _ | i
    all_goals simp

@[simp] theorem wordOfBytes_bytes (op : Word) : wordOfBytes (highByte op) (lowByte op) = op := by
  apply BitVec.eq_of_getLsbD_eq
  intro i hi
  simp only [wordOfBytes, highByte, lowByte, BitVec.getLsbD_extractLsb', BitVec.getLsbD_append]
  rcases i with _ | _ | _ | _ | _ | _ | _ | _ | _ | _ | _ | _ | _ | _ | _ | _ | i
  all_goals simp

/-- What decoding the first instruction of two or more bytes answers. -/
theorem decodeBytes_pair (b0 b1 : Byte) (rest : List Byte) :
    decodeBytes (b0 :: b1 :: rest) =
      match decode (wordOfBytes b0 b1) with
      | some i => .instr i rest
      | none => .reject (.unrecognised (wordOfBytes b0 b1)) := rfl

/-- The decoder reads the instruction of a table entry from its word. -/
theorem decodeTableWord_eq (nbits w : Nat) : decodeTableWord nbits w = decode (tableWord nbits w) := by
  simp only [decodeTableWord, tableBytes, decodeBytes_pair, wordOfBytes_bytes]
  cases decode (tableWord nbits w) <;> rfl

end Sys2Proof
end

