-- ==== Sys2Proof/Laws/Memory.lean ====
section
/-!
SUPPORT. Laws/Memory: a byte reads as what was last written to it, a write leaves every other byte alone, and every memory operation keeps the canonical form.
-/

namespace Sys2Proof.Machine

theorem Memory.read_nil (a : Nat) : Memory.read [] a = resetByte a := rfl

theorem Memory.read_cell (c : Nat) (v : Byte) (m : Memory) (a : Nat) :
    Memory.read ((c, v) :: m) a = if a = c then v else m.read a := rfl

/-- Below its first address a canonical memory reads its reset contents. -/
theorem Memory.read_below {lo : Nat} {m : Memory} (h : Memory.wfFrom lo m = true) {a : Nat} (ha : a < lo) :
    m.read a = resetByte a := by
  induction m generalizing lo with
  | nil => rfl
  | cons cell m ih =>
    obtain ⟨c, v⟩ := cell
    simp only [Memory.wfFrom, Bool.and_eq_true, decide_eq_true_eq] at h
    rw [Memory.read_cell, if_neg (by omega)]
    exact ih h.2 (by omega)

/-- The canonical form is kept when the lower bound falls. -/
theorem Memory.wfFrom_mono {lo lo' : Nat} {m : Memory} (h : Memory.wfFrom lo m = true) (hl : lo' ≤ lo) :
    Memory.wfFrom lo' m = true := by
  cases m with
  | nil => rfl
  | cons cell m =>
    simp only [Memory.wfFrom, Bool.and_eq_true, decide_eq_true_eq] at h ⊢
    exact ⟨⟨⟨by omega, h.1.1.2⟩, h.1.2⟩, h.2⟩

/-- A cell put before canonical cells at higher addresses keeps the form. -/
theorem Memory.wfFrom_cons {lo a : Nat} {m : Memory} (b : Byte) (h : Memory.wfFrom (a + 1) m = true) (hlo : lo ≤ a)
    (ha : a < 4096) : Memory.wfFrom lo (Memory.cons a b m) = true := by
  unfold Memory.cons
  split
  · exact Memory.wfFrom_mono h (by omega)
  · simp_all [Memory.wfFrom]

/-- A write inside memory keeps the form from any bound not above its address. -/
theorem Memory.wfFrom_write {lo a : Nat} {m : Memory} (b : Byte) (h : Memory.wfFrom lo m = true) (hlo : lo ≤ a)
    (ha : a < 4096) : Memory.wfFrom lo (m.write a b) = true := by
  induction m generalizing lo with
  | nil => exact Memory.wfFrom_cons b rfl hlo ha
  | cons cell m ih =>
    obtain ⟨c, v⟩ := cell
    simp only [Memory.wfFrom, Bool.and_eq_true, decide_eq_true_eq] at h
    unfold Memory.write
    split
    · refine Memory.wfFrom_cons b ?_ hlo ha
      simp only [Memory.wfFrom, Bool.and_eq_true, decide_eq_true_eq]
      exact ⟨⟨⟨by omega, h.1.1.2⟩, h.1.2⟩, h.2⟩
    · split
      · subst a
        exact Memory.wfFrom_cons b h.2 hlo ha
      · simp only [Memory.wfFrom, Bool.and_eq_true, decide_eq_true_eq]
        exact ⟨h.1, ih h.2 (by omega)⟩

/-- A write inside memory keeps the canonical form. -/
theorem Memory.wf_write {m : Memory} (h : m.wf = true) {a : Nat} (ha : a < 4096) (b : Byte) : (m.write a b).wf = true :=
  Memory.wfFrom_write b h (Nat.zero_le a) ha

/-- Reading a cell put before canonical cells at higher addresses. -/
theorem Memory.read_cons {a : Nat} {m : Memory} (b : Byte) (h : Memory.wfFrom (a + 1) m = true) (c : Nat) :
    (Memory.cons a b m).read c = if c = a then b else m.read c := by
  unfold Memory.cons
  split
  · rename_i hb
    split
    · subst c
      rw [Memory.read_below h (by omega), hb]
    · rfl
  · rfl

/-- A byte reads as what was last written to it; a write leaves every other byte alone (spec/20_memory.md R65). -/
theorem Memory.readFrom_write {lo a : Nat} {m : Memory} (b : Byte) (h : Memory.wfFrom lo m = true) (c : Nat) :
    (m.write a b).read c = if c = a then b else m.read c := by
  induction m generalizing lo with
  | nil => exact Memory.read_cons b rfl c
  | cons cell m ih =>
    obtain ⟨d, v⟩ := cell
    simp only [Memory.wfFrom, Bool.and_eq_true, decide_eq_true_eq] at h
    unfold Memory.write
    split
    · refine Memory.read_cons b ?_ c
      simp only [Memory.wfFrom, Bool.and_eq_true, decide_eq_true_eq]
      exact ⟨⟨⟨by omega, h.1.1.2⟩, h.1.2⟩, h.2⟩
    · split
      · subst a
        rw [Memory.read_cons b h.2, Memory.read_cell]
        split <;> rfl
      · rw [Memory.read_cell, ih h.2, Memory.read_cell]
        split <;> split <;> first | rfl | omega

theorem Memory.read_write {m : Memory} (h : m.wf = true) (a : Nat) (b : Byte) (c : Nat) :
    (m.write a b).read c = if c = a then b else m.read c := Memory.readFrom_write b h c

/-- With `DATA_OOB = fault` an access reaches the address itself. -/
@[simp] theorem effectiveAddress_params (a : Nat) : effectiveAddress params a = a := rfl

theorem Memory.length_readBlock (p : Config.Params) (m : Memory) (a n : Nat) : (m.readBlock p a n).length = n := by
  simp [Memory.readBlock]

/-- The k-th byte of a block is the byte at its k-th address. -/
theorem Memory.getD_readBlock (m : Memory) (a n k : Nat) (hk : k < n) (d : Byte) :
    (m.readBlock params a n).getD k d = m.read (a + k) := by
  simp [Memory.readBlock, hk]

/-- A block of bytes copied inside memory keeps the canonical form. -/
theorem Memory.wf_copy {m : Memory} (h : m.wf = true) {a : Nat} (bs : List Byte) (ha : a + bs.length ≤ 4096) :
    (m.copy a bs).wf = true := by
  induction bs generalizing m a with
  | nil => exact h
  | cons b bs ih =>
    simp only [List.length_cons] at ha
    exact ih (Memory.wf_write h (by omega) b) (by omega)

/-- After a copy its bytes read in order from its base, and every other byte as before (spec/70_reset_and_hazards.md R282). -/
theorem Memory.read_copy {m : Memory} (h : m.wf = true) {a : Nat} (bs : List Byte) (ha : a + bs.length ≤ 4096) (c : Nat) :
    (m.copy a bs).read c = if a ≤ c ∧ c < a + bs.length then bs.getD (c - a) 0 else m.read c := by
  induction bs generalizing m a with
  | nil =>
    rw [if_neg (by simp only [List.length_nil]; omega)]
    rfl
  | cons b bs ih =>
    simp only [List.length_cons] at ha ⊢
    rw [show m.copy a (b :: bs) = (m.write a b).copy (a + 1) bs from rfl, ih (Memory.wf_write h (by omega) b) (by omega)]
    by_cases hc : c = a
    · subst c
      rw [if_neg (by omega), if_pos (by omega), Memory.read_write h, if_pos rfl, Nat.sub_self]
      rfl
    · by_cases hin : a + 1 ≤ c ∧ c < a + 1 + bs.length
      · rw [if_pos hin, if_pos (by omega), show c - a = (c - (a + 1)) + 1 by omega]
        rfl
      · rw [if_neg hin, if_neg (by omega), Memory.read_write h, if_neg hc]

/-- With `DATA_OOB = fault` a block write is a copy. -/
theorem Memory.writeBlock_params (m : Memory) (a : Nat) (bs : List Byte) : m.writeBlock params a bs = m.copy a bs := by
  induction bs generalizing m a with
  | nil => rfl
  | cons b bs ih => exact ih (m.write a b) (a + 1)

end Sys2Proof.Machine
end

