-- ==== Sys2Proof/Laws/Framebuffer.lean ====
section
/-!
SUPPORT. Laws/Framebuffer: what a toggled pixel, a drawn row and a drawn sprite leave in each pixel (spec/44_display.md R202).
-/

namespace Sys2Proof.Machine

@[simp] theorem pixelAt_blank (x : Fin 64) (y : Fin 32) : pixelAt blankFramebuffer x y = false := by
  simp [pixelAt, blankFramebuffer]

/-- Two framebuffers with the same pixels are the same. -/
theorem framebuffer_ext {f g : Framebuffer} (h : ∀ x y, pixelAt f x y = pixelAt g x y) : f = g := by
  apply Vector.ext
  intro y hy
  apply Vector.ext
  intro x hx
  exact h ⟨x, hx⟩ ⟨y, hy⟩

/-- A toggle inverts its pixel and leaves every other one alone. -/
theorem pixelAt_toggle (fb : Framebuffer) (x u : Fin 64) (y v : Fin 32) :
    pixelAt (togglePixel fb x y) u v = (pixelAt fb u v ^^ (decide (u = x) && decide (v = y))) := by
  unfold pixelAt togglePixel
  rw [Vector.getElem_set]
  by_cases hy : v = y
  · subst hy
    simp only [if_pos, Vector.getElem_set, Fin.ext_iff, decide_true, Bool.and_true]
    by_cases hx : u = x
    · subst hx
      simp [pixelAt]
    · have hx' : ¬ x.val = u.val := fun e => hx (Fin.ext e.symm)
      have hx'' : ¬ u.val = x.val := fun e => hx (Fin.ext e)
      simp [hx', hx'']
  · have hy' : ¬ y.val = v.val := fun e => hy (Fin.ext e.symm)
    simp [hy, hy']

/-- A sprite bit inverts its pixel if it is 1. -/
theorem pixelAt_drawBit (s : Bool) (x u : Fin 64) (y v : Fin 32) (d : Drawing) :
    pixelAt (drawBit s x y d).fb u v = (pixelAt d.fb u v ^^ (s && decide (u = x) && decide (v = y))) := by
  cases s
  · simp [drawBit]
  · simp [drawBit, pixelAt_toggle]

/-- A sprite bit that is 1 records a pixel that was 1. -/
theorem hit_drawBit (s : Bool) (x : Fin 64) (y : Fin 32) (d : Drawing) :
    (drawBit s x y d).hit = (d.hit || (s && pixelAt d.fb x y)) := by
  cases s <;> simp [drawBit]

/-- The column of a sprite, 0..7, that lies at column `u` of the screen, if below 8 (spec/44_display.md R202). -/
def spriteColumn (x0 : Byte) (u : Fin 64) : Nat := (u.val + 64 - x0.toNat % 64) % 64

/-- The row of a sprite that lies at row `v` of the screen, if below its height (spec/44_display.md R202). -/
def spriteRow (y0 : Byte) (v : Fin 32) : Nat := (v.val + 32 - y0.toNat % 32) % 32

theorem columnOf_eq (x0 : Byte) (u : Fin 64) (col : Nat) (h : col < 64) :
    u = columnOf x0 col ↔ spriteColumn x0 u = col := by
  have hu := u.isLt
  rw [Fin.ext_iff]
  simp only [columnOf, spriteColumn, Fin.val_ofNat]
  omega

theorem rowOf_eq (y0 : Byte) (v : Fin 32) (row : Nat) (h : row < 32) : v = rowOf y0 row ↔ spriteRow y0 v = row := by
  have hv := v.isLt
  rw [Fin.ext_iff]
  simp only [rowOf, spriteRow, Fin.val_ofNat]
  omega

/-- Distinct columns of a sprite reach distinct columns of the screen. -/
theorem columnOf_inj (x0 : Byte) {i j : Nat} (hi : i < 64) (hj : j < 64) (h : columnOf x0 i = columnOf x0 j) : i = j := by
  have h1 := (columnOf_eq x0 (columnOf x0 i) i hi).1 rfl
  have h2 := (columnOf_eq x0 (columnOf x0 i) j hj).1 h
  omega

/-- The columns of one sprite row drawn so far, for a list of distinct columns below 64. -/
theorem foldl_drawBit (f : Nat → Bool) (x0 : Byte) (y : Fin 32) (cols : List Nat) (hlt : ∀ c ∈ cols, c < 64)
    (hnd : cols.Nodup) (d : Drawing) (u : Fin 64) (v : Fin 32) :
    pixelAt (cols.foldl (fun d col => drawBit (f col) (columnOf x0 col) y d) d).fb u v =
        (pixelAt d.fb u v ^^ (decide (v = y) && decide (spriteColumn x0 u ∈ cols) && f (spriteColumn x0 u))) ∧
      (cols.foldl (fun d col => drawBit (f col) (columnOf x0 col) y d) d).hit =
        (d.hit || cols.any fun col => f col && pixelAt d.fb (columnOf x0 col) y) := by
  induction cols generalizing d with
  | nil => simp
  | cons c cols ih =>
    have hc : c < 64 := hlt c (List.mem_cons_self ..)
    have hnd' := List.nodup_cons.1 hnd
    obtain ⟨ih1, ih2⟩ := ih (fun k hk => hlt k (List.mem_cons_of_mem _ hk)) hnd'.2 (drawBit (f c) (columnOf x0 c) y d)
    simp only [List.foldl_cons]
    constructor
    · rw [ih1, pixelAt_drawBit]
      by_cases hu : u = columnOf x0 c
      · have hcol := (columnOf_eq x0 u c hc).1 hu
        rw [hcol]
        simp [hu, hnd'.1, Bool.and_comm]
      · have hcol : spriteColumn x0 u ≠ c := fun e => hu ((columnOf_eq x0 u c hc).2 e)
        simp [hu, hcol]
    · rw [ih2, hit_drawBit, List.any_cons, Bool.or_assoc]
      congr 2
      apply Bool.eq_iff_iff.2
      simp only [List.any_eq_true, Bool.and_eq_true]
      refine ⟨fun ⟨k, hk, h1, h2⟩ => ⟨k, hk, h1, ?_⟩, fun ⟨k, hk, h1, h2⟩ => ⟨k, hk, h1, ?_⟩⟩ <;>
      · have hne : ¬ columnOf x0 k = columnOf x0 c := fun e =>
          hnd'.1 (columnOf_inj x0 (hlt k (List.mem_cons_of_mem _ hk)) hc e ▸ hk)
        simpa [pixelAt_drawBit, hne] using h2

/-- One sprite row: each of its bits inverts its pixel of row `y`, and a hit is a bit of 1 on a pixel of 1. -/
theorem drawRow_spec (p : Config.Params) (x0 : Byte) (y : Fin 32) (b : Byte) (d : Drawing) (u : Fin 64) (v : Fin 32) :
    pixelAt (drawRow p x0 y b d).fb u v =
        (pixelAt d.fb u v ^^ (decide (v = y) && decide (spriteColumn x0 u < 8) && spriteBit p b (spriteColumn x0 u))) ∧
      (drawRow p x0 y b d).hit =
        (d.hit || [0, 1, 2, 3, 4, 5, 6, 7].any fun col => spriteBit p b col && pixelAt d.fb (columnOf x0 col) y) := by
  have h := foldl_drawBit (spriteBit p b) x0 y [0, 1, 2, 3, 4, 5, 6, 7] (by decide) (by decide) d u v
  have hm : ∀ k : Nat, k ∈ [0, 1, 2, 3, 4, 5, 6, 7] ↔ k < 8 := by
    intro k
    simp only [List.mem_cons, List.not_mem_nil, or_false]
    omega
  rw [show decide (spriteColumn x0 u ∈ [0, 1, 2, 3, 4, 5, 6, 7]) = decide (spriteColumn x0 u < 8) from
    decide_eq_decide.2 (hm _)] at h
  exact h

/-- The bit of a sprite that reaches the pixel at column `u` and row `v`, 0 where none does. -/
def spriteAt (p : Config.Params) (x0 y0 : Byte) (bs : List Byte) (u : Fin 64) (v : Fin 32) : Bool :=
  decide (spriteColumn x0 u < 8) && decide (spriteRow y0 v < bs.length) &&
    spriteBit p (bs.getD (spriteRow y0 v) 0) (spriteColumn x0 u)

/-- The sprite's rows from `row` on, at most 32 in all: each bit inverts its pixel. -/
theorem pixelAt_drawRows (p : Config.Params) (x0 y0 : Byte) (row : Nat) (bs : List Byte) (hb : row + bs.length ≤ 32)
    (d : Drawing) (u : Fin 64) (v : Fin 32) :
    pixelAt (drawRows p x0 y0 row bs d).fb u v =
      (pixelAt d.fb u v ^^ (decide (spriteColumn x0 u < 8) &&
        decide (row ≤ spriteRow y0 v ∧ spriteRow y0 v < row + bs.length) &&
        spriteBit p (bs.getD (spriteRow y0 v - row) 0) (spriteColumn x0 u))) := by
  induction bs generalizing row d with
  | nil =>
    have : ¬ (row ≤ spriteRow y0 v ∧ spriteRow y0 v < row) := by omega
    simp [drawRows, this]
  | cons b bs ih =>
    simp only [List.length_cons] at hb ⊢
    rw [show drawRows p x0 y0 row (b :: bs) d = drawRows p x0 y0 (row + 1) bs (drawRow p x0 (rowOf y0 row) b d) from rfl,
      ih (row + 1) (by omega), (drawRow_spec p x0 (rowOf y0 row) b d u v).1]
    by_cases hv : spriteRow y0 v = row
    · have hv' : v = rowOf y0 row := (rowOf_eq y0 v row (by omega)).2 hv
      have h1 : ¬ (row + 1 ≤ spriteRow y0 v ∧ spriteRow y0 v < row + 1 + bs.length) := by omega
      have h2 : row ≤ spriteRow y0 v ∧ spriteRow y0 v < row + (bs.length + 1) := by omega
      rw [decide_eq_false h1, decide_eq_true h2]
      simp [← hv', hv]
    · have hv' : ¬ v = rowOf y0 row := fun e => hv ((rowOf_eq y0 v row (by omega)).1 e)
      by_cases hin : row + 1 ≤ spriteRow y0 v ∧ spriteRow y0 v < row + 1 + bs.length
      · have h2 : row ≤ spriteRow y0 v ∧ spriteRow y0 v < row + (bs.length + 1) := by omega
        rw [show spriteRow y0 v - row = (spriteRow y0 v - (row + 1)) + 1 by omega, decide_eq_true hin, decide_eq_true h2]
        simp [hv']
      · have h2 : ¬ (row ≤ spriteRow y0 v ∧ spriteRow y0 v < row + (bs.length + 1)) := by omega
        rw [decide_eq_false hin, decide_eq_false h2]
        simp [hv']

/-- A drawn sprite inverts exactly the pixels its bits of 1 reach (spec/44_display.md R202). -/
theorem pixelAt_drawSprite (p : Config.Params) (x0 y0 : Byte) (bs : List Byte) (hb : bs.length ≤ 32) (fb : Framebuffer)
    (u : Fin 64) (v : Fin 32) :
    pixelAt (drawSprite p x0 y0 bs fb).fb u v = (pixelAt fb u v ^^ spriteAt p x0 y0 bs u v) := by
  unfold drawSprite spriteAt
  rw [pixelAt_drawRows p x0 y0 0 bs (by omega)]
  simp

/-- The sprite's rows from `row` on: a hit is a bit of 1 on a pixel of 1. -/
theorem hit_drawRows (p : Config.Params) (x0 y0 : Byte) (row : Nat) (bs : List Byte) (hb : row + bs.length ≤ 32)
    (d : Drawing) :
    (drawRows p x0 y0 row bs d).hit = true ↔
      d.hit = true ∨ ∃ u v, pixelAt d.fb u v = true ∧ spriteColumn x0 u < 8 ∧ row ≤ spriteRow y0 v ∧
        spriteRow y0 v < row + bs.length ∧ spriteBit p (bs.getD (spriteRow y0 v - row) 0) (spriteColumn x0 u) = true := by
  induction bs generalizing row d with
  | nil =>
    constructor
    · exact Or.inl
    · rintro (h | ⟨u, v, -, -, h1, h2, -⟩)
      · exact h
      · simp only [List.length_nil] at h2
        omega
  | cons b bs ih =>
    simp only [List.length_cons] at hb ⊢
    rw [show drawRows p x0 y0 row (b :: bs) d = drawRows p x0 y0 (row + 1) bs (drawRow p x0 (rowOf y0 row) b d) from rfl,
      ih (row + 1) (by omega), (drawRow_spec p x0 (rowOf y0 row) b d 0 0).2]
    have hrow : ∀ v, spriteRow y0 v ≠ row → ∀ u, pixelAt (drawRow p x0 (rowOf y0 row) b d).fb u v = pixelAt d.fb u v := by
      intro v hv u
      have hv' : ¬ v = rowOf y0 row := fun e => hv ((rowOf_eq y0 v row (by omega)).1 e)
      rw [(drawRow_spec p x0 (rowOf y0 row) b d u v).1]
      simp [hv']
    constructor
    · rintro (h | ⟨u, v, hp, hc, h1, h2, hbit⟩)
      · rcases Bool.or_eq_true _ _ ▸ h with h | h
        · exact Or.inl h
        · obtain ⟨col, hcol, hx⟩ := List.any_eq_true.1 h
          have hlt : col < 8 := by
            simp only [List.mem_cons, List.not_mem_nil, or_false] at hcol
            omega
          have hsc := (columnOf_eq x0 (columnOf x0 col) col (by omega)).1 rfl
          have hsr := (rowOf_eq y0 (rowOf y0 row) row (by omega)).1 rfl
          rw [Bool.and_eq_true] at hx
          refine Or.inr ⟨columnOf x0 col, rowOf y0 row, hx.2, by omega, by omega, by omega, ?_⟩
          rw [hsr, hsc, Nat.sub_self]
          exact hx.1
      · rw [hrow v (by omega) u] at hp
        refine Or.inr ⟨u, v, hp, hc, by omega, by omega, ?_⟩
        rw [show spriteRow y0 v - row = (spriteRow y0 v - (row + 1)) + 1 by omega]
        exact hbit
    · rintro (h | ⟨u, v, hp, hc, h1, h2, hbit⟩)
      · exact Or.inl (by rw [h, Bool.true_or])
      · by_cases hv : spriteRow y0 v = row
        · refine Or.inl ?_
          rw [Bool.or_eq_true, List.any_eq_true]
          refine Or.inr ⟨spriteColumn x0 u, ?_, ?_⟩
          · simp only [List.mem_cons, List.not_mem_nil, or_false]
            omega
          · rw [hv, Nat.sub_self] at hbit
            rw [← (columnOf_eq x0 u _ (by omega)).2 rfl, ← (rowOf_eq y0 v row (by omega)).2 hv, hp, Bool.and_true]
            exact hbit
        · refine Or.inr ⟨u, v, by rw [hrow v hv u]; exact hp, hc, by omega, by omega, ?_⟩
          rw [show spriteRow y0 v - row = (spriteRow y0 v - (row + 1)) + 1 by omega] at hbit
          exact hbit

/-- A drawn sprite hits exactly if one of its bits of 1 reaches a pixel of 1 (spec/44_display.md R202). -/
theorem hit_drawSprite (p : Config.Params) (x0 y0 : Byte) (bs : List Byte) (hb : bs.length ≤ 32) (fb : Framebuffer) :
    (drawSprite p x0 y0 bs fb).hit = true ↔ ∃ u v, pixelAt fb u v = true ∧ spriteAt p x0 y0 bs u v = true := by
  unfold drawSprite spriteAt
  rw [hit_drawRows p x0 y0 0 bs (by omega)]
  simp only [Bool.false_eq_true, false_or, Nat.zero_le, true_and, Nat.zero_add, Nat.sub_zero, Bool.and_eq_true,
    decide_eq_true_eq]
  exact ⟨fun ⟨u, v, h, a, b, c⟩ => ⟨u, v, h, ⟨a, b⟩, c⟩, fun ⟨u, v, h, ⟨a, b⟩, c⟩ => ⟨u, v, h, a, b, c⟩⟩

end Sys2Proof.Machine
end

