-- ==== Sys2Proof/Laws/State.lean ====
section
/-!
SUPPORT. Laws/State: what each update of the state does to each field, one lemma a field, so that no proof unfolds a record update.
-/

namespace Sys2Proof.Machine.State

variable (s : State)

/-! `writeV` -/

@[simp] theorem writeV_mem (r : Reg) (v : Byte) : (s.writeV r v).mem = s.mem := rfl
@[simp] theorem writeV_I (r : Reg) (v : Byte) : (s.writeV r v).I = s.I := rfl
@[simp] theorem writeV_pc (r : Reg) (v : Byte) : (s.writeV r v).pc = s.pc := rfl
@[simp] theorem writeV_stack (r : Reg) (v : Byte) : (s.writeV r v).stack = s.stack := rfl
@[simp] theorem writeV_sp (r : Reg) (v : Byte) : (s.writeV r v).sp = s.sp := rfl
@[simp] theorem writeV_DT (r : Reg) (v : Byte) : (s.writeV r v).DT = s.DT := rfl
@[simp] theorem writeV_ST (r : Reg) (v : Byte) : (s.writeV r v).ST = s.ST := rfl
@[simp] theorem writeV_fb (r : Reg) (v : Byte) : (s.writeV r v).fb = s.fb := rfl
@[simp] theorem writeV_key (r : Reg) (v : Byte) : (s.writeV r v).key = s.key := rfl
@[simp] theorem writeV_redraw (r : Reg) (v : Byte) : (s.writeV r v).redraw = s.redraw := rfl
@[simp] theorem writeV_fault (r : Reg) (v : Byte) : (s.writeV r v).fault = s.fault := rfl
@[simp] theorem writeV_tone (r : Reg) (v : Byte) : (s.writeV r v).tone = s.tone := rfl
@[simp] theorem writeV_started (r : Reg) (v : Byte) : (s.writeV r v).started = s.started := rfl
@[simp] theorem writeV_draws (r : Reg) (v : Byte) : (s.writeV r v).draws = s.draws := rfl

/-! `jump` -/

@[simp] theorem jump_mem (w : Word) : (s.jump w).mem = s.mem := rfl
@[simp] theorem jump_V (w : Word) : (s.jump w).V = s.V := rfl
@[simp] theorem jump_I (w : Word) : (s.jump w).I = s.I := rfl
@[simp] theorem jump_pc (w : Word) : (s.jump w).pc = w := rfl
@[simp] theorem jump_stack (w : Word) : (s.jump w).stack = s.stack := rfl
@[simp] theorem jump_sp (w : Word) : (s.jump w).sp = s.sp := rfl
@[simp] theorem jump_DT (w : Word) : (s.jump w).DT = s.DT := rfl
@[simp] theorem jump_ST (w : Word) : (s.jump w).ST = s.ST := rfl
@[simp] theorem jump_fb (w : Word) : (s.jump w).fb = s.fb := rfl
@[simp] theorem jump_key (w : Word) : (s.jump w).key = s.key := rfl
@[simp] theorem jump_redraw (w : Word) : (s.jump w).redraw = s.redraw := rfl
@[simp] theorem jump_fault (w : Word) : (s.jump w).fault = s.fault := rfl
@[simp] theorem jump_tone (w : Word) : (s.jump w).tone = s.tone := rfl
@[simp] theorem jump_started (w : Word) : (s.jump w).started = s.started := rfl
@[simp] theorem jump_draws (w : Word) : (s.jump w).draws = s.draws := rfl

/-! `advance` -/

@[simp] theorem advance_mem : (s.advance).mem = s.mem := rfl
@[simp] theorem advance_V : (s.advance).V = s.V := rfl
@[simp] theorem advance_I : (s.advance).I = s.I := rfl
@[simp] theorem advance_pc : (s.advance).pc = s.pc + 2 := rfl
@[simp] theorem advance_stack : (s.advance).stack = s.stack := rfl
@[simp] theorem advance_sp : (s.advance).sp = s.sp := rfl
@[simp] theorem advance_DT : (s.advance).DT = s.DT := rfl
@[simp] theorem advance_ST : (s.advance).ST = s.ST := rfl
@[simp] theorem advance_fb : (s.advance).fb = s.fb := rfl
@[simp] theorem advance_key : (s.advance).key = s.key := rfl
@[simp] theorem advance_redraw : (s.advance).redraw = s.redraw := rfl
@[simp] theorem advance_fault : (s.advance).fault = s.fault := rfl
@[simp] theorem advance_tone : (s.advance).tone = s.tone := rfl
@[simp] theorem advance_started : (s.advance).started = s.started := rfl
@[simp] theorem advance_draws : (s.advance).draws = s.draws := rfl

/-! `setI` -/

@[simp] theorem setI_mem (w : Word) : (s.setI w).mem = s.mem := rfl
@[simp] theorem setI_V (w : Word) : (s.setI w).V = s.V := rfl
@[simp] theorem setI_I (w : Word) : (s.setI w).I = w := rfl
@[simp] theorem setI_pc (w : Word) : (s.setI w).pc = s.pc := rfl
@[simp] theorem setI_stack (w : Word) : (s.setI w).stack = s.stack := rfl
@[simp] theorem setI_sp (w : Word) : (s.setI w).sp = s.sp := rfl
@[simp] theorem setI_DT (w : Word) : (s.setI w).DT = s.DT := rfl
@[simp] theorem setI_ST (w : Word) : (s.setI w).ST = s.ST := rfl
@[simp] theorem setI_fb (w : Word) : (s.setI w).fb = s.fb := rfl
@[simp] theorem setI_key (w : Word) : (s.setI w).key = s.key := rfl
@[simp] theorem setI_redraw (w : Word) : (s.setI w).redraw = s.redraw := rfl
@[simp] theorem setI_fault (w : Word) : (s.setI w).fault = s.fault := rfl
@[simp] theorem setI_tone (w : Word) : (s.setI w).tone = s.tone := rfl
@[simp] theorem setI_started (w : Word) : (s.setI w).started = s.started := rfl
@[simp] theorem setI_draws (w : Word) : (s.setI w).draws = s.draws := rfl

/-! `countDraw` -/

@[simp] theorem countDraw_mem : (s.countDraw).mem = s.mem := rfl
@[simp] theorem countDraw_V : (s.countDraw).V = s.V := rfl
@[simp] theorem countDraw_I : (s.countDraw).I = s.I := rfl
@[simp] theorem countDraw_pc : (s.countDraw).pc = s.pc := rfl
@[simp] theorem countDraw_stack : (s.countDraw).stack = s.stack := rfl
@[simp] theorem countDraw_sp : (s.countDraw).sp = s.sp := rfl
@[simp] theorem countDraw_DT : (s.countDraw).DT = s.DT := rfl
@[simp] theorem countDraw_ST : (s.countDraw).ST = s.ST := rfl
@[simp] theorem countDraw_fb : (s.countDraw).fb = s.fb := rfl
@[simp] theorem countDraw_key : (s.countDraw).key = s.key := rfl
@[simp] theorem countDraw_redraw : (s.countDraw).redraw = s.redraw := rfl
@[simp] theorem countDraw_fault : (s.countDraw).fault = s.fault := rfl
@[simp] theorem countDraw_tone : (s.countDraw).tone = s.tone := rfl
@[simp] theorem countDraw_started : (s.countDraw).started = s.started := rfl
@[simp] theorem countDraw_draws : (s.countDraw).draws = s.draws + 1 := rfl

/-! `markStarted` -/

@[simp] theorem markStarted_mem : (s.markStarted).mem = s.mem := rfl
@[simp] theorem markStarted_V : (s.markStarted).V = s.V := rfl
@[simp] theorem markStarted_I : (s.markStarted).I = s.I := rfl
@[simp] theorem markStarted_pc : (s.markStarted).pc = s.pc := rfl
@[simp] theorem markStarted_stack : (s.markStarted).stack = s.stack := rfl
@[simp] theorem markStarted_sp : (s.markStarted).sp = s.sp := rfl
@[simp] theorem markStarted_DT : (s.markStarted).DT = s.DT := rfl
@[simp] theorem markStarted_ST : (s.markStarted).ST = s.ST := rfl
@[simp] theorem markStarted_fb : (s.markStarted).fb = s.fb := rfl
@[simp] theorem markStarted_key : (s.markStarted).key = s.key := rfl
@[simp] theorem markStarted_redraw : (s.markStarted).redraw = s.redraw := rfl
@[simp] theorem markStarted_fault : (s.markStarted).fault = s.fault := rfl
@[simp] theorem markStarted_tone : (s.markStarted).tone = s.tone := rfl
@[simp] theorem markStarted_started : (s.markStarted).started = true := rfl
@[simp] theorem markStarted_draws : (s.markStarted).draws = s.draws := rfl

/-! `writeFlag` -/

@[simp] theorem writeFlag_mem (f : Bool) : (s.writeFlag f).mem = s.mem := rfl
@[simp] theorem writeFlag_I (f : Bool) : (s.writeFlag f).I = s.I := rfl
@[simp] theorem writeFlag_pc (f : Bool) : (s.writeFlag f).pc = s.pc := rfl
@[simp] theorem writeFlag_stack (f : Bool) : (s.writeFlag f).stack = s.stack := rfl
@[simp] theorem writeFlag_sp (f : Bool) : (s.writeFlag f).sp = s.sp := rfl
@[simp] theorem writeFlag_DT (f : Bool) : (s.writeFlag f).DT = s.DT := rfl
@[simp] theorem writeFlag_ST (f : Bool) : (s.writeFlag f).ST = s.ST := rfl
@[simp] theorem writeFlag_fb (f : Bool) : (s.writeFlag f).fb = s.fb := rfl
@[simp] theorem writeFlag_key (f : Bool) : (s.writeFlag f).key = s.key := rfl
@[simp] theorem writeFlag_redraw (f : Bool) : (s.writeFlag f).redraw = s.redraw := rfl
@[simp] theorem writeFlag_fault (f : Bool) : (s.writeFlag f).fault = s.fault := rfl
@[simp] theorem writeFlag_tone (f : Bool) : (s.writeFlag f).tone = s.tone := rfl
@[simp] theorem writeFlag_started (f : Bool) : (s.writeFlag f).started = s.started := rfl
@[simp] theorem writeFlag_draws (f : Bool) : (s.writeFlag f).draws = s.draws := rfl

/-! `storeBytes` -/

@[simp] theorem storeBytes_mem (p : Config.Params) (bs : List Byte) : (s.storeBytes p bs).mem = s.mem.writeBlock p s.I.toNat bs := rfl
@[simp] theorem storeBytes_V (p : Config.Params) (bs : List Byte) : (s.storeBytes p bs).V = s.V := rfl
@[simp] theorem storeBytes_I (p : Config.Params) (bs : List Byte) : (s.storeBytes p bs).I = s.I := rfl
@[simp] theorem storeBytes_pc (p : Config.Params) (bs : List Byte) : (s.storeBytes p bs).pc = s.pc := rfl
@[simp] theorem storeBytes_stack (p : Config.Params) (bs : List Byte) : (s.storeBytes p bs).stack = s.stack := rfl
@[simp] theorem storeBytes_sp (p : Config.Params) (bs : List Byte) : (s.storeBytes p bs).sp = s.sp := rfl
@[simp] theorem storeBytes_DT (p : Config.Params) (bs : List Byte) : (s.storeBytes p bs).DT = s.DT := rfl
@[simp] theorem storeBytes_ST (p : Config.Params) (bs : List Byte) : (s.storeBytes p bs).ST = s.ST := rfl
@[simp] theorem storeBytes_fb (p : Config.Params) (bs : List Byte) : (s.storeBytes p bs).fb = s.fb := rfl
@[simp] theorem storeBytes_key (p : Config.Params) (bs : List Byte) : (s.storeBytes p bs).key = s.key := rfl
@[simp] theorem storeBytes_redraw (p : Config.Params) (bs : List Byte) : (s.storeBytes p bs).redraw = s.redraw := rfl
@[simp] theorem storeBytes_fault (p : Config.Params) (bs : List Byte) : (s.storeBytes p bs).fault = s.fault := rfl
@[simp] theorem storeBytes_tone (p : Config.Params) (bs : List Byte) : (s.storeBytes p bs).tone = s.tone := rfl
@[simp] theorem storeBytes_started (p : Config.Params) (bs : List Byte) : (s.storeBytes p bs).started = s.started := rfl
@[simp] theorem storeBytes_draws (p : Config.Params) (bs : List Byte) : (s.storeBytes p bs).draws = s.draws := rfl

/-! `loadRegs` -/

@[simp] theorem loadRegs_mem (p : Config.Params) (x : Reg) : (s.loadRegs p x).mem = s.mem := rfl
@[simp] theorem loadRegs_I (p : Config.Params) (x : Reg) : (s.loadRegs p x).I = s.I := rfl
@[simp] theorem loadRegs_pc (p : Config.Params) (x : Reg) : (s.loadRegs p x).pc = s.pc := rfl
@[simp] theorem loadRegs_stack (p : Config.Params) (x : Reg) : (s.loadRegs p x).stack = s.stack := rfl
@[simp] theorem loadRegs_sp (p : Config.Params) (x : Reg) : (s.loadRegs p x).sp = s.sp := rfl
@[simp] theorem loadRegs_DT (p : Config.Params) (x : Reg) : (s.loadRegs p x).DT = s.DT := rfl
@[simp] theorem loadRegs_ST (p : Config.Params) (x : Reg) : (s.loadRegs p x).ST = s.ST := rfl
@[simp] theorem loadRegs_fb (p : Config.Params) (x : Reg) : (s.loadRegs p x).fb = s.fb := rfl
@[simp] theorem loadRegs_key (p : Config.Params) (x : Reg) : (s.loadRegs p x).key = s.key := rfl
@[simp] theorem loadRegs_redraw (p : Config.Params) (x : Reg) : (s.loadRegs p x).redraw = s.redraw := rfl
@[simp] theorem loadRegs_fault (p : Config.Params) (x : Reg) : (s.loadRegs p x).fault = s.fault := rfl
@[simp] theorem loadRegs_tone (p : Config.Params) (x : Reg) : (s.loadRegs p x).tone = s.tone := rfl
@[simp] theorem loadRegs_started (p : Config.Params) (x : Reg) : (s.loadRegs p x).started = s.started := rfl
@[simp] theorem loadRegs_draws (p : Config.Params) (x : Reg) : (s.loadRegs p x).draws = s.draws := rfl

/-! `show` -/

@[simp] theorem show_mem (fb : Framebuffer) : (s.show fb).mem = s.mem := rfl
@[simp] theorem show_V (fb : Framebuffer) : (s.show fb).V = s.V := rfl
@[simp] theorem show_I (fb : Framebuffer) : (s.show fb).I = s.I := rfl
@[simp] theorem show_pc (fb : Framebuffer) : (s.show fb).pc = s.pc := rfl
@[simp] theorem show_stack (fb : Framebuffer) : (s.show fb).stack = s.stack := rfl
@[simp] theorem show_sp (fb : Framebuffer) : (s.show fb).sp = s.sp := rfl
@[simp] theorem show_DT (fb : Framebuffer) : (s.show fb).DT = s.DT := rfl
@[simp] theorem show_ST (fb : Framebuffer) : (s.show fb).ST = s.ST := rfl
@[simp] theorem show_fb (fb : Framebuffer) : (s.show fb).fb = fb := rfl
@[simp] theorem show_key (fb : Framebuffer) : (s.show fb).key = s.key := rfl
@[simp] theorem show_redraw (fb : Framebuffer) : (s.show fb).redraw = true := rfl
@[simp] theorem show_fault (fb : Framebuffer) : (s.show fb).fault = s.fault := rfl
@[simp] theorem show_tone (fb : Framebuffer) : (s.show fb).tone = s.tone := rfl
@[simp] theorem show_started (fb : Framebuffer) : (s.show fb).started = s.started := rfl
@[simp] theorem show_draws (fb : Framebuffer) : (s.show fb).draws = s.draws := rfl

/-! `setDT` -/

@[simp] theorem setDT_mem (v : Byte) : (s.setDT v).mem = s.mem := rfl
@[simp] theorem setDT_V (v : Byte) : (s.setDT v).V = s.V := rfl
@[simp] theorem setDT_I (v : Byte) : (s.setDT v).I = s.I := rfl
@[simp] theorem setDT_pc (v : Byte) : (s.setDT v).pc = s.pc := rfl
@[simp] theorem setDT_stack (v : Byte) : (s.setDT v).stack = s.stack := rfl
@[simp] theorem setDT_sp (v : Byte) : (s.setDT v).sp = s.sp := rfl
@[simp] theorem setDT_DT (v : Byte) : (s.setDT v).DT = v := rfl
@[simp] theorem setDT_ST (v : Byte) : (s.setDT v).ST = s.ST := rfl
@[simp] theorem setDT_fb (v : Byte) : (s.setDT v).fb = s.fb := rfl
@[simp] theorem setDT_key (v : Byte) : (s.setDT v).key = s.key := rfl
@[simp] theorem setDT_redraw (v : Byte) : (s.setDT v).redraw = s.redraw := rfl
@[simp] theorem setDT_fault (v : Byte) : (s.setDT v).fault = s.fault := rfl
@[simp] theorem setDT_tone (v : Byte) : (s.setDT v).tone = s.tone := rfl
@[simp] theorem setDT_started (v : Byte) : (s.setDT v).started = s.started := rfl
@[simp] theorem setDT_draws (v : Byte) : (s.setDT v).draws = s.draws := rfl

/-! `setST` -/

@[simp] theorem setST_mem (v : Byte) : (s.setST v).mem = s.mem := rfl
@[simp] theorem setST_V (v : Byte) : (s.setST v).V = s.V := rfl
@[simp] theorem setST_I (v : Byte) : (s.setST v).I = s.I := rfl
@[simp] theorem setST_pc (v : Byte) : (s.setST v).pc = s.pc := rfl
@[simp] theorem setST_stack (v : Byte) : (s.setST v).stack = s.stack := rfl
@[simp] theorem setST_sp (v : Byte) : (s.setST v).sp = s.sp := rfl
@[simp] theorem setST_DT (v : Byte) : (s.setST v).DT = s.DT := rfl
@[simp] theorem setST_ST (v : Byte) : (s.setST v).ST = v := rfl
@[simp] theorem setST_fb (v : Byte) : (s.setST v).fb = s.fb := rfl
@[simp] theorem setST_key (v : Byte) : (s.setST v).key = s.key := rfl
@[simp] theorem setST_redraw (v : Byte) : (s.setST v).redraw = s.redraw := rfl
@[simp] theorem setST_fault (v : Byte) : (s.setST v).fault = s.fault := rfl
@[simp] theorem setST_tone (v : Byte) : (s.setST v).tone = s.tone := rfl
@[simp] theorem setST_started (v : Byte) : (s.setST v).started = s.started := rfl
@[simp] theorem setST_draws (v : Byte) : (s.setST v).draws = s.draws := rfl

/-! `placeAtPc` -/

@[simp] theorem placeAtPc_mem (bs : List Byte) : (s.placeAtPc bs).mem = s.mem.copy s.pc.toNat bs := rfl
@[simp] theorem placeAtPc_V (bs : List Byte) : (s.placeAtPc bs).V = s.V := rfl
@[simp] theorem placeAtPc_I (bs : List Byte) : (s.placeAtPc bs).I = s.I := rfl
@[simp] theorem placeAtPc_pc (bs : List Byte) : (s.placeAtPc bs).pc = s.pc := rfl
@[simp] theorem placeAtPc_stack (bs : List Byte) : (s.placeAtPc bs).stack = s.stack := rfl
@[simp] theorem placeAtPc_sp (bs : List Byte) : (s.placeAtPc bs).sp = s.sp := rfl
@[simp] theorem placeAtPc_DT (bs : List Byte) : (s.placeAtPc bs).DT = s.DT := rfl
@[simp] theorem placeAtPc_ST (bs : List Byte) : (s.placeAtPc bs).ST = s.ST := rfl
@[simp] theorem placeAtPc_fb (bs : List Byte) : (s.placeAtPc bs).fb = s.fb := rfl
@[simp] theorem placeAtPc_key (bs : List Byte) : (s.placeAtPc bs).key = s.key := rfl
@[simp] theorem placeAtPc_redraw (bs : List Byte) : (s.placeAtPc bs).redraw = s.redraw := rfl
@[simp] theorem placeAtPc_fault (bs : List Byte) : (s.placeAtPc bs).fault = s.fault := rfl
@[simp] theorem placeAtPc_tone (bs : List Byte) : (s.placeAtPc bs).tone = s.tone := rfl
@[simp] theorem placeAtPc_started (bs : List Byte) : (s.placeAtPc bs).started = s.started := rfl
@[simp] theorem placeAtPc_draws (bs : List Byte) : (s.placeAtPc bs).draws = s.draws := rfl

/-! `readyToFetch` -/

@[simp] theorem readyToFetch_mem : (s.readyToFetch).mem = s.mem := rfl
@[simp] theorem readyToFetch_V : (s.readyToFetch).V = s.V := rfl
@[simp] theorem readyToFetch_I : (s.readyToFetch).I = s.I := rfl
@[simp] theorem readyToFetch_stack : (s.readyToFetch).stack = s.stack := rfl
@[simp] theorem readyToFetch_sp : (s.readyToFetch).sp = s.sp := rfl
@[simp] theorem readyToFetch_DT : (s.readyToFetch).DT = s.DT := rfl
@[simp] theorem readyToFetch_ST : (s.readyToFetch).ST = s.ST := rfl
@[simp] theorem readyToFetch_fb : (s.readyToFetch).fb = s.fb := rfl
@[simp] theorem readyToFetch_key : (s.readyToFetch).key = s.key := rfl
@[simp] theorem readyToFetch_redraw : (s.readyToFetch).redraw = s.redraw := rfl
@[simp] theorem readyToFetch_fault : (s.readyToFetch).fault = none := rfl
@[simp] theorem readyToFetch_tone : (s.readyToFetch).tone = s.tone := rfl
@[simp] theorem readyToFetch_started : (s.readyToFetch).started = s.started := rfl
@[simp] theorem readyToFetch_draws : (s.readyToFetch).draws = s.draws := rfl

/-! `push` -/

@[simp] theorem push_mem (v : Word) (h : s.sp.val < 16) : (s.push v h).mem = s.mem := rfl
@[simp] theorem push_V (v : Word) (h : s.sp.val < 16) : (s.push v h).V = s.V := rfl
@[simp] theorem push_I (v : Word) (h : s.sp.val < 16) : (s.push v h).I = s.I := rfl
@[simp] theorem push_pc (v : Word) (h : s.sp.val < 16) : (s.push v h).pc = s.pc := rfl
@[simp] theorem push_stack (v : Word) (h : s.sp.val < 16) : (s.push v h).stack = s.stack.set s.sp.val v := rfl
@[simp] theorem push_DT (v : Word) (h : s.sp.val < 16) : (s.push v h).DT = s.DT := rfl
@[simp] theorem push_ST (v : Word) (h : s.sp.val < 16) : (s.push v h).ST = s.ST := rfl
@[simp] theorem push_fb (v : Word) (h : s.sp.val < 16) : (s.push v h).fb = s.fb := rfl
@[simp] theorem push_key (v : Word) (h : s.sp.val < 16) : (s.push v h).key = s.key := rfl
@[simp] theorem push_redraw (v : Word) (h : s.sp.val < 16) : (s.push v h).redraw = s.redraw := rfl
@[simp] theorem push_fault (v : Word) (h : s.sp.val < 16) : (s.push v h).fault = s.fault := rfl
@[simp] theorem push_tone (v : Word) (h : s.sp.val < 16) : (s.push v h).tone = s.tone := rfl
@[simp] theorem push_started (v : Word) (h : s.sp.val < 16) : (s.push v h).started = s.started := rfl
@[simp] theorem push_draws (v : Word) (h : s.sp.val < 16) : (s.push v h).draws = s.draws := rfl

/-! `popPc` -/

@[simp] theorem popPc_mem (h : 0 < s.sp.val) : (s.popPc h).mem = s.mem := rfl
@[simp] theorem popPc_V (h : 0 < s.sp.val) : (s.popPc h).V = s.V := rfl
@[simp] theorem popPc_I (h : 0 < s.sp.val) : (s.popPc h).I = s.I := rfl
@[simp] theorem popPc_stack (h : 0 < s.sp.val) : (s.popPc h).stack = s.stack := rfl
@[simp] theorem popPc_DT (h : 0 < s.sp.val) : (s.popPc h).DT = s.DT := rfl
@[simp] theorem popPc_ST (h : 0 < s.sp.val) : (s.popPc h).ST = s.ST := rfl
@[simp] theorem popPc_fb (h : 0 < s.sp.val) : (s.popPc h).fb = s.fb := rfl
@[simp] theorem popPc_key (h : 0 < s.sp.val) : (s.popPc h).key = s.key := rfl
@[simp] theorem popPc_redraw (h : 0 < s.sp.val) : (s.popPc h).redraw = s.redraw := rfl
@[simp] theorem popPc_fault (h : 0 < s.sp.val) : (s.popPc h).fault = s.fault := rfl
@[simp] theorem popPc_tone (h : 0 < s.sp.val) : (s.popPc h).tone = s.tone := rfl
@[simp] theorem popPc_started (h : 0 < s.sp.val) : (s.popPc h).started = s.started := rfl
@[simp] theorem popPc_draws (h : 0 < s.sp.val) : (s.popPc h).draws = s.draws := rfl

/-! `resetOp` -/

@[simp] theorem resetOp_mem : (s.resetOp).mem = State.reset.mem := rfl
@[simp] theorem resetOp_V : (s.resetOp).V = State.reset.V := rfl
@[simp] theorem resetOp_I : (s.resetOp).I = State.reset.I := rfl
@[simp] theorem resetOp_pc : (s.resetOp).pc = State.reset.pc := rfl
@[simp] theorem resetOp_stack : (s.resetOp).stack = State.reset.stack := rfl
@[simp] theorem resetOp_sp : (s.resetOp).sp = State.reset.sp := rfl
@[simp] theorem resetOp_DT : (s.resetOp).DT = State.reset.DT := rfl
@[simp] theorem resetOp_ST : (s.resetOp).ST = State.reset.ST := rfl
@[simp] theorem resetOp_fb : (s.resetOp).fb = State.reset.fb := rfl
@[simp] theorem resetOp_key : (s.resetOp).key = State.reset.key := rfl
@[simp] theorem resetOp_redraw : (s.resetOp).redraw = State.reset.redraw := rfl
@[simp] theorem resetOp_fault : (s.resetOp).fault = State.reset.fault := rfl
@[simp] theorem resetOp_tone : (s.resetOp).tone = State.reset.tone := rfl
@[simp] theorem resetOp_started : (s.resetOp).started = State.reset.started := rfl
@[simp] theorem resetOp_draws : (s.resetOp).draws = s.draws := rfl

/-! `tickTimers` -/

@[simp] theorem tickTimers_mem : (s.tickTimers).mem = s.mem := rfl
@[simp] theorem tickTimers_V : (s.tickTimers).V = s.V := rfl
@[simp] theorem tickTimers_I : (s.tickTimers).I = s.I := rfl
@[simp] theorem tickTimers_pc : (s.tickTimers).pc = s.pc := rfl
@[simp] theorem tickTimers_stack : (s.tickTimers).stack = s.stack := rfl
@[simp] theorem tickTimers_sp : (s.tickTimers).sp = s.sp := rfl
@[simp] theorem tickTimers_fb : (s.tickTimers).fb = s.fb := rfl
@[simp] theorem tickTimers_key : (s.tickTimers).key = s.key := rfl
@[simp] theorem tickTimers_redraw : (s.tickTimers).redraw = s.redraw := rfl
@[simp] theorem tickTimers_fault : (s.tickTimers).fault = s.fault := rfl
@[simp] theorem tickTimers_tone : (s.tickTimers).tone = decide (0 < s.ST.toNat) := rfl
@[simp] theorem tickTimers_started : (s.tickTimers).started = s.started := rfl
@[simp] theorem tickTimers_draws : (s.tickTimers).draws = s.draws := rfl

/-! `setKey` -/

@[simp] theorem setKey_mem (k : Key) (b : Bool) : (s.setKey k b).mem = s.mem := rfl
@[simp] theorem setKey_V (k : Key) (b : Bool) : (s.setKey k b).V = s.V := rfl
@[simp] theorem setKey_I (k : Key) (b : Bool) : (s.setKey k b).I = s.I := rfl
@[simp] theorem setKey_pc (k : Key) (b : Bool) : (s.setKey k b).pc = s.pc := rfl
@[simp] theorem setKey_stack (k : Key) (b : Bool) : (s.setKey k b).stack = s.stack := rfl
@[simp] theorem setKey_sp (k : Key) (b : Bool) : (s.setKey k b).sp = s.sp := rfl
@[simp] theorem setKey_DT (k : Key) (b : Bool) : (s.setKey k b).DT = s.DT := rfl
@[simp] theorem setKey_ST (k : Key) (b : Bool) : (s.setKey k b).ST = s.ST := rfl
@[simp] theorem setKey_fb (k : Key) (b : Bool) : (s.setKey k b).fb = s.fb := rfl
@[simp] theorem setKey_key (k : Key) (b : Bool) : (s.setKey k b).key = s.key.set k.val b := rfl
@[simp] theorem setKey_redraw (k : Key) (b : Bool) : (s.setKey k b).redraw = s.redraw := rfl
@[simp] theorem setKey_fault (k : Key) (b : Bool) : (s.setKey k b).fault = s.fault := rfl
@[simp] theorem setKey_tone (k : Key) (b : Bool) : (s.setKey k b).tone = s.tone := rfl
@[simp] theorem setKey_started (k : Key) (b : Bool) : (s.setKey k b).started = s.started := rfl
@[simp] theorem setKey_draws (k : Key) (b : Bool) : (s.setKey k b).draws = s.draws := rfl

/-! `clearRedraw` -/

@[simp] theorem clearRedraw_mem : (s.clearRedraw).mem = s.mem := rfl
@[simp] theorem clearRedraw_V : (s.clearRedraw).V = s.V := rfl
@[simp] theorem clearRedraw_I : (s.clearRedraw).I = s.I := rfl
@[simp] theorem clearRedraw_pc : (s.clearRedraw).pc = s.pc := rfl
@[simp] theorem clearRedraw_stack : (s.clearRedraw).stack = s.stack := rfl
@[simp] theorem clearRedraw_sp : (s.clearRedraw).sp = s.sp := rfl
@[simp] theorem clearRedraw_DT : (s.clearRedraw).DT = s.DT := rfl
@[simp] theorem clearRedraw_ST : (s.clearRedraw).ST = s.ST := rfl
@[simp] theorem clearRedraw_fb : (s.clearRedraw).fb = s.fb := rfl
@[simp] theorem clearRedraw_key : (s.clearRedraw).key = s.key := rfl
@[simp] theorem clearRedraw_redraw : (s.clearRedraw).redraw = false := rfl
@[simp] theorem clearRedraw_fault : (s.clearRedraw).fault = s.fault := rfl
@[simp] theorem clearRedraw_tone : (s.clearRedraw).tone = s.tone := rfl
@[simp] theorem clearRedraw_started : (s.clearRedraw).started = s.started := rfl
@[simp] theorem clearRedraw_draws : (s.clearRedraw).draws = s.draws := rfl

/-! `skipIf` -/

@[simp] theorem skipIf_mem (c : Bool) : (s.skipIf c).mem = s.mem := by cases c <;> rfl
@[simp] theorem skipIf_V (c : Bool) : (s.skipIf c).V = s.V := by cases c <;> rfl
@[simp] theorem skipIf_I (c : Bool) : (s.skipIf c).I = s.I := by cases c <;> rfl
@[simp] theorem skipIf_pc (c : Bool) : (s.skipIf c).pc = if c then s.pc + 4 else s.pc + 2 := by cases c <;> rfl
@[simp] theorem skipIf_stack (c : Bool) : (s.skipIf c).stack = s.stack := by cases c <;> rfl
@[simp] theorem skipIf_sp (c : Bool) : (s.skipIf c).sp = s.sp := by cases c <;> rfl
@[simp] theorem skipIf_DT (c : Bool) : (s.skipIf c).DT = s.DT := by cases c <;> rfl
@[simp] theorem skipIf_ST (c : Bool) : (s.skipIf c).ST = s.ST := by cases c <;> rfl
@[simp] theorem skipIf_fb (c : Bool) : (s.skipIf c).fb = s.fb := by cases c <;> rfl
@[simp] theorem skipIf_key (c : Bool) : (s.skipIf c).key = s.key := by cases c <;> rfl
@[simp] theorem skipIf_redraw (c : Bool) : (s.skipIf c).redraw = s.redraw := by cases c <;> rfl
@[simp] theorem skipIf_fault (c : Bool) : (s.skipIf c).fault = s.fault := by cases c <;> rfl
@[simp] theorem skipIf_tone (c : Bool) : (s.skipIf c).tone = s.tone := by cases c <;> rfl
@[simp] theorem skipIf_started (c : Bool) : (s.skipIf c).started = s.started := by cases c <;> rfl
@[simp] theorem skipIf_draws (c : Bool) : (s.skipIf c).draws = s.draws := by cases c <;> rfl

/-! What the remaining fields become. -/

@[simp] theorem push_sp_val (v : Word) (h : s.sp.val < 16) : (s.push v h).sp.val = s.sp.val + 1 := rfl
@[simp] theorem popPc_sp_val (h : 0 < s.sp.val) : (s.popPc h).sp.val = s.sp.val - 1 := rfl
theorem popPc_pc (h : 0 < s.sp.val) :
    (s.popPc h).pc = s.stack[s.sp.val - 1]'(Nat.lt_of_lt_of_le (Nat.sub_lt h Nat.one_pos) (Nat.le_of_lt_succ s.sp.isLt)) := rfl
@[simp] theorem tickTimers_DT : s.tickTimers.DT = if 0 < s.DT.toNat then s.DT - 1 else s.DT := rfl
@[simp] theorem tickTimers_ST : s.tickTimers.ST = if 0 < s.ST.toNat then s.ST - 1 else s.ST := rfl
@[simp] theorem loadRegs_V (p : Config.Params) (x : Reg) :
    (s.loadRegs p x).V = regsWithBlock s.V x (s.loadBytes p (x.val + 1)) := rfl

/-! Registers are read and written through `readV`, `writeV`. -/

/-- A register reads as what was last written to it; every other register is left alone. -/
@[simp] theorem readV_writeV (r q : Reg) (v : Byte) : (s.writeV r v).readV q = if q = r then v else s.readV q := by
  simp only [readV, writeV, Vector.getElem_set, Fin.ext_iff, eq_comm]

/-- The flag reads as 0 or 1 in VF; every other register is left alone. -/
@[simp] theorem readV_writeFlag (f : Bool) (q : Reg) :
    (s.writeFlag f).readV q = if q = vf then flagByte f else s.readV q := readV_writeV s vf q _

/-- The registers depend on `V` alone. -/
theorem readV_congr (t : State) (h : t.V = s.V) (q : Reg) : t.readV q = s.readV q := by simp only [readV, h]

@[simp] theorem readV_jump (w : Word) (q : Reg) : (s.jump w).readV q = s.readV q := rfl
@[simp] theorem readV_advance (q : Reg) : (s.advance).readV q = s.readV q := rfl
@[simp] theorem readV_setI (w : Word) (q : Reg) : (s.setI w).readV q = s.readV q := rfl
@[simp] theorem readV_countDraw (q : Reg) : (s.countDraw).readV q = s.readV q := rfl
@[simp] theorem readV_markStarted (q : Reg) : (s.markStarted).readV q = s.readV q := rfl
@[simp] theorem readV_storeBytes (p : Config.Params) (bs : List Byte) (q : Reg) : (s.storeBytes p bs).readV q = s.readV q := rfl
@[simp] theorem readV_show (fb : Framebuffer) (q : Reg) : (s.show fb).readV q = s.readV q := rfl
@[simp] theorem readV_setDT (v : Byte) (q : Reg) : (s.setDT v).readV q = s.readV q := rfl
@[simp] theorem readV_setST (v : Byte) (q : Reg) : (s.setST v).readV q = s.readV q := rfl
@[simp] theorem readV_skipIf (c : Bool) (q : Reg) : (s.skipIf c).readV q = s.readV q := by cases c <;> rfl
@[simp] theorem readV_tickTimers (q : Reg) : (s.tickTimers).readV q = s.readV q := rfl
@[simp] theorem readV_setKey (k : Key) (b : Bool) (q : Reg) : (s.setKey k b).readV q = s.readV q := rfl
@[simp] theorem readV_clearRedraw (q : Reg) : (s.clearRedraw).readV q = s.readV q := rfl
@[simp] theorem readV_push (v : Word) (h : s.sp.val < 16) (q : Reg) : (s.push v h).readV q = s.readV q := rfl
@[simp] theorem readV_popPc (h : 0 < s.sp.val) (q : Reg) : (s.popPc h).readV q = s.readV q := rfl

/-- After FX65 the registers up to X hold the block's bytes, the others are unchanged. -/
theorem readV_loadRegs (p : Config.Params) (x q : Reg) :
    (s.loadRegs p x).readV q = if q ≤ x then (s.loadBytes p (x.val + 1)).getD q.val 0 else s.readV q := by
  simp [readV, loadRegs, regsWithBlock]

/-! The key latch is read through `keyDown`. -/

@[simp] theorem keyDown_setKey (k j : Key) (b : Bool) : (s.setKey k b).keyDown j = if j = k then b else s.keyDown j := by
  simp only [keyDown, setKey, Vector.getElem_set, Fin.ext_iff, eq_comm]

/-- The keys depend on `key` alone. -/
theorem keyDown_congr (t : State) (h : t.key = s.key) (k : Key) : t.keyDown k = s.keyDown k := by simp only [keyDown, h]

/-! The setting of the parameters. -/

/-- With `VF_ORDER = flag_last` the result goes first and the flag last (decision D11). -/
theorem writeResultFlag_params (x : Reg) (v : Byte) (f : Bool) :
    s.writeResultFlag params x v f = (s.writeV x v).writeFlag f := rfl

end Sys2Proof.Machine.State
end

