-- ==== Sys2Proof/Laws/Ops.lean ====
section
/-!
SUPPORT. Laws/Ops: one lemma for each shared operation of the machine, which says what it can do.
-/

namespace Sys2Proof.Machine

/-- Taking a fatal condition sets `fault` and changes nothing else (spec/60_exceptions.md R241). -/
theorem raiseFault_eq (f : Fault) (s : State) : raiseFault f s = .next { s with fault := some f } := rfl

theorem finishResult_eq (x : Reg) (v : Byte) (s : State) : finishResult x v s = .next (s.writeV x v).advance := rfl

theorem finishResultFlag_params (x : Reg) (v : Byte) (f : Bool) (s : State) :
    finishResultFlag params x v f s = .next ((s.writeV x v).writeFlag f).advance := rfl

/-- The data bound check, with its last address as an unbounded integer (spec/20_memory.md R67). -/
theorem dataOutOfBounds_params (s : State) (count : Nat) :
    dataOutOfBounds params s count = true ↔ 0 < count ∧ 0x0FFF < s.I.toNat + count - 1 := by
  simp [dataOutOfBounds, params]

/-- An access that passes the check lies inside memory. -/
theorem block_inside {s : State} {count : Nat} (h : dataOutOfBounds params s count = false) :
    count = 0 ∨ s.I.toNat + count ≤ 4096 := by
  have := mt (dataOutOfBounds_params s count).2 (by simp [h])
  omega

theorem fetchOutOfBounds_iff (pc : Word) : fetchOutOfBounds pc = true ↔ 0x0FFF < pc.toNat + 1 := by
  simp [fetchOutOfBounds]

theorem fetchOutOfBounds_not (pc : Word) : fetchOutOfBounds pc = false ↔ pc.toNat + 1 ≤ 0x0FFF := by
  simp [fetchOutOfBounds]

/-- What a step finds before it executes, with the condition of each finding (spec/60_exceptions.md R240). -/
theorem fetchDecode_cases (s : State) :
    (s.fault ≠ none ∧ fetchDecode s = .halted) ∨
    (s.fault = none ∧ 0x0FFF < s.pc.toNat + 1 ∧ fetchDecode s = .outOfRange) ∨
    (s.fault = none ∧ s.pc.toNat + 1 ≤ 0x0FFF ∧ decode s.fetchWord = none ∧ fetchDecode s = .unrecognised s.fetchWord) ∨
    ∃ i, s.fault = none ∧ s.pc.toNat + 1 ≤ 0x0FFF ∧ decode s.fetchWord = some i ∧ fetchDecode s = .instr i := by
  cases hf : s.fault with
  | some f => exact .inl ⟨by simp, by simp [fetchDecode, hf]⟩
  | none =>
    refine .inr ?_
    by_cases hb : 0x0FFF < s.pc.toNat + 1
    · exact .inl ⟨rfl, hb, by simp [fetchDecode, hf, fetchOutOfBounds, hb]⟩
    · refine .inr ?_
      have hb' : fetchOutOfBounds s.pc = false := (fetchOutOfBounds_not _).2 (by omega)
      cases hd : decode s.fetchWord with
      | none => exact .inl ⟨rfl, by omega, rfl, by simp [fetchDecode, hf, hb', hd]⟩
      | some i => exact .inr ⟨i, rfl, by omega, rfl, by simp [fetchDecode, hf, hb', hd]⟩

/-- What a step can do, with the condition of each case (spec/40_step_cycle.md R120). -/
theorem step_cases (s : State) :
    (s.fault ≠ none ∧ step s = .next s) ∨
    (s.fault = none ∧ 0x0FFF < s.pc.toNat + 1 ∧
      step s = .next { s.markStarted with fault := some (.fetchOutOfRange s.pc) }) ∨
    (s.fault = none ∧ s.pc.toNat + 1 ≤ 0x0FFF ∧ decode s.fetchWord = none ∧ step s = .next s.markStarted.advance) ∨
    ∃ i, s.fault = none ∧ s.pc.toNat + 1 ≤ 0x0FFF ∧ decode s.fetchWord = some i ∧ step s = exec i s.markStarted := by
  rcases fetchDecode_cases s with ⟨hf, h⟩ | ⟨hf, hb, h⟩ | ⟨hf, hb, hd, h⟩ | ⟨i, hf, hb, hd, h⟩
  · exact .inl ⟨hf, by simp only [step, h]⟩
  · exact .inr (.inl ⟨hf, hb, by simp only [step, h]; rfl⟩)
  · exact .inr (.inr (.inl ⟨hf, hb, hd, by simp only [step, h]; rfl⟩))
  · exact .inr (.inr (.inr ⟨i, hf, hb, hd, by simp only [step, h]⟩))

/-- The key a byte names: itself up to 15, none above (spec/45_keys_timers.md R210). -/
theorem keyIndex_params (v : Byte) : keyIndex params v = if h : v.toNat < 16 then some ⟨v.toNat, h⟩ else none := rfl

/-- A key-test skip on a byte that names a key. -/
theorem skipOnKey_of_lt {x : Reg} {s : State} (b : Bool) (h : (s.readV x).toNat < 16) :
    skipOnKey params x b s = .next (s.skipIf (s.keyDown ⟨(s.readV x).toNat, h⟩ == b)) := by
  simp only [skipOnKey, keyIndex_params, dif_pos h]

/-- A key-test skip on a byte that names no key. -/
theorem skipOnKey_of_ge {x : Reg} {s : State} (b : Bool) (h : 16 ≤ (s.readV x).toNat) :
    skipOnKey params x b s = .next { s with fault := some (.keyIndexOutOfRange (s.readV x) s.pc) } := by
  simp only [skipOnKey, keyIndex_params, dif_neg (Nat.not_lt.2 h), raiseFault_eq]

theorem mem_allKeys (k : Key) : k ∈ allKeys := by revert k; decide

/-- The pressed keys are those whose latch entry is true. -/
theorem mem_pressedKeys (s : State) (k : Key) : k ∈ pressedKeys s ↔ s.keyDown k = true := by
  simp [pressedKeys, mem_allKeys]

/-- The key picked is a pressed one (spec/45_keys_timers.md R214). -/
theorem pickKey_mem (p : Config.Params) (n : Nat) (l : List Key) (k : Key) (h : pickKey p n l = some k) : k ∈ l := by
  unfold pickKey at h
  split at h
  · exact List.mem_of_getElem? h
  · exact List.mem_of_mem_head? h

/-- No key is picked exactly if none is pressed. -/
theorem pickKey_eq_none (p : Config.Params) (n : Nat) (l : List Key) : pickKey p n l = none ↔ l = [] := by
  unfold pickKey
  split
  · cases l with
    | nil => simp
    | cons a l =>
      simp only [List.getElem?_eq_none_iff, reduceCtorEq, iff_false, Nat.not_le]
      exact Nat.mod_lt _ (by simp)
  · simp

/-- The bytes of a block read at I, one by one. -/
theorem getD_loadBytes (s : State) (n k : Nat) (hk : k < n) : (s.loadBytes params n).getD k 0 = s.mem.read (s.I.toNat + k) :=
  Memory.getD_readBlock s.mem s.I.toNat n k hk 0

theorem length_loadBytes (p : Config.Params) (s : State) (n : Nat) : (s.loadBytes p n).length = n :=
  Memory.length_readBlock p s.mem s.I.toNat n

/-- What memory reads after bytes are stored at I. -/
theorem read_storeBytes (s : State) (bs : List Byte) (hm : s.mem.wf = true) (hb : bs = [] ∨ s.I.toNat + bs.length ≤ 4096)
    (a : Nat) :
    (s.storeBytes params bs).mem.read a =
      if s.I.toNat ≤ a ∧ a < s.I.toNat + bs.length then bs.getD (a - s.I.toNat) 0 else s.mem.read a := by
  rw [State.storeBytes_mem, Memory.writeBlock_params]
  rcases hb with rfl | hb
  · rw [if_neg (by simp only [List.length_nil]; omega)]
    rfl
  · exact Memory.read_copy hm bs hb a

/-- Bytes stored at I inside memory keep the canonical form. -/
theorem wf_storeBytes (s : State) (bs : List Byte) (hm : s.mem.wf = true) (hb : bs = [] ∨ s.I.toNat + bs.length ≤ 4096) :
    (s.storeBytes params bs).mem.wf = true := by
  rw [State.storeBytes_mem, Memory.writeBlock_params]
  rcases hb with rfl | hb
  · exact hm
  · exact Memory.wf_copy hm bs hb

theorem length_blockOfRegs (s : State) (x : Reg) : (blockOfRegs s x).length = x.val + 1 := by
  have := x.isLt
  simp [blockOfRegs]

/-- The k-th byte of the block of V0..VX is register k. -/
theorem getD_blockOfRegs (s : State) (x : Reg) (k : Nat) (hk : k ≤ x.val) :
    (blockOfRegs s x).getD k 0 = s.readV ⟨k, Nat.lt_of_le_of_lt hk x.isLt⟩ := by
  simp [blockOfRegs, State.readV, Nat.lt_succ_of_le hk]

theorem length_decimalDigits (v : Byte) : (decimalDigits v).length = 3 := rfl

theorem indexAfterBlock_params (i : Word) (x : Reg) : indexAfterBlock params i x = i := rfl

theorem shiftOperand_params (s : State) (x y : Reg) : shiftOperand params s x y = s.readV x := rfl

theorem spriteBit_params (b : Byte) (col : Nat) : spriteBit params b col = b.getLsbD (7 - col) := rfl

/-- No two conditions share a code (spec/60_exceptions.md R231). -/
theorem Condition.code_inj {c d : Condition} (h : c.code = d.code) : c = d := by
  cases c <;> cases d <;> first | rfl | exact absurd h (by decide)

/-- The codes are 1 to 7. -/
theorem Condition.code_range (c : Condition) : 1 ≤ c.code ∧ c.code ≤ 7 := by cases c <;> decide

/-- What `fault` holds is a fatal condition. -/
theorem Fault.tier_condition (f : Fault) : f.condition.tier = .fatal := by cases f <;> rfl

/-- Rows 1 to 5 of the table are the fatal ones. -/
theorem Condition.fatal_iff (c : Condition) : c.tier = .fatal ↔ c.code ≤ 5 := by cases c <;> decide

/-- A step reports no condition but the diagnostic's. -/
theorem condition_of_step_event {s : State} {e : Event} (h : e ∈ events .step s) :
    e.condition = some .unrecognisedOpcode := by
  obtain ⟨d, -, rfl⟩ := List.mem_map.1 h
  rfl

/-- Each operation's outcome (spec/00_scope.md R9). -/
theorem operate_cases (op : HostOp) (s : State) :
    (op = .reset ∧ operate op s = .next s.resetOp) ∨
    (∃ bytes, op = .load bytes ∧ operate op s = loadOp bytes s) ∨
    (op = .step ∧ operate op s = step s) ∨
    (op = .tickTimers ∧ operate op s = .next s.tickTimers) ∨
    (∃ k b, op = .setKey k b ∧ operate op s = .next (s.setKey k b)) ∨
    (op = .clearRedraw ∧ operate op s = .next s.clearRedraw) := by
  cases op with
  | reset => exact .inl ⟨rfl, rfl⟩
  | load bytes => exact .inr (.inl ⟨bytes, rfl, rfl⟩)
  | step => exact .inr (.inr (.inl ⟨rfl, rfl⟩))
  | tickTimers => exact .inr (.inr (.inr (.inl ⟨rfl, rfl⟩)))
  | setKey k b => exact .inr (.inr (.inr (.inr (.inl ⟨k, b, rfl, rfl⟩))))
  | clearRedraw => exact .inr (.inr (.inr (.inr (.inr ⟨rfl, rfl⟩))))

/-- The program is copied, or it is too long and nothing changes (spec/70_reset_and_hazards.md R282). -/
theorem loadProgram_cases (s : State) (bytes : List Byte) :
    (3584 < bytes.length ∧ s.loadProgram bytes = s) ∨
    (bytes.length ≤ 3584 ∧ s.loadProgram bytes = { s with mem := s.mem.copy 0x200 bytes }) := by
  unfold State.loadProgram
  split
  · exact .inl ⟨by assumption, rfl⟩
  · exact .inr ⟨Nat.not_lt.1 (by assumption), rfl⟩

end Sys2Proof.Machine
end

