-- ==== Sys2Proof/Laws/Exec.lean ====
section
/-!
SUPPORT. Laws/Exec: what `exec` answers for each instruction, as one equation a case at the parameters this model runs with, so that no proof unfolds a meaning; and what reading a register after a write gives.
-/

namespace Sys2Proof.Machine

/-! Registers after a write. -/

theorem readV_writeV_self (s : State) (r : Reg) (v : Byte) : (s.writeV r v).readV r = v := by
  simp [State.readV, State.writeV]

theorem readV_writeV_ne (s : State) {r q : Reg} (v : Byte) (h : q ≠ r) : (s.writeV r v).readV q = s.readV q := by
  simp only [State.readV, State.writeV]
  exact Vector.getElem_set_ne _ _ fun e => h (Fin.ext e.symm)

theorem readV_writeFlag_vf (s : State) (f : Bool) : (s.writeFlag f).readV vf = if f then 1 else 0 :=
  readV_writeV_self s vf (flagByte f)

theorem readV_writeFlag_ne (s : State) {q : Reg} (f : Bool) (h : q ≠ vf) : (s.writeFlag f).readV q = s.readV q :=
  readV_writeV_ne s (flagByte f) h

@[simp] theorem readV_advance (s : State) (r : Reg) : s.advance.readV r = s.readV r := rfl

/-- The register FX65 loads from the block, or leaves. -/
theorem readV_loadRegs (s : State) (x r : Reg) :
    (s.loadRegs params x).readV r = if r ≤ x then s.mem.read (s.I.toNat + r.val) else s.readV r := by
  have e : (s.loadRegs params x).readV r =
      if r ≤ x then (s.loadBytes params (x.val + 1)).getD r.val 0 else s.readV r := by
    simp only [State.readV, State.loadRegs, regsWithBlock, Vector.getElem_ofFn]
  rw [e]
  split
  · rename_i h
    rw [getD_loadBytes s _ _ (Nat.lt_succ_of_le h)]
  · rfl

/-! The bound checks of the data accesses. -/

theorem dataOutOfBounds_false {s : State} {count : Nat} (h : count = 0 ∨ s.I.toNat + count - 1 ≤ 0x0FFF) :
    dataOutOfBounds params s count = false := by
  simp [dataOutOfBounds, params]
  omega

theorem dataOutOfBounds_true {s : State} {count : Nat} (h0 : 0 < count) (h : 0x0FFF < s.I.toNat + count - 1) :
    dataOutOfBounds params s count = true := (dataOutOfBounds_params s count).2 ⟨h0, h⟩

/-! Control transfer. -/

theorem exec_jp (nnn : Addr) (s : State) : exec (.jp nnn) s = .next (s.jump (zextAddr nnn)) := rfl

theorem exec_jpv0 (nnn : Addr) (s : State) : exec (.jpv0 nnn) s = .next (s.jump (offsetTarget s nnn)) := rfl

theorem exec_ret (s : State) (h : 0 < s.sp.val) : exec .ret s = .next (s.popPc h) := dif_pos h

theorem exec_ret_fault (s : State) (h : s.sp.val = 0) :
    exec .ret s = .next { s with fault := some (.stackUnderflow s.pc) } := dif_neg (by omega)

theorem exec_call (nnn : Addr) (s : State) (h : s.sp.val < 16) :
    exec (.call nnn) s = .next ((s.push (s.pc + 2) h).jump (zextAddr nnn)) := dif_pos h

theorem exec_call_fault (nnn : Addr) (s : State) (h : s.sp.val = 16) :
    exec (.call nnn) s = .next { s with fault := some (.stackOverflow s.pc) } := dif_neg (by omega)

theorem exec_sei (x : Reg) (nn : Byte) (s : State) : exec (.sei x nn) s = .next (s.skipIf (s.readV x == nn)) := rfl

theorem exec_snei (x : Reg) (nn : Byte) (s : State) : exec (.snei x nn) s = .next (s.skipIf (s.readV x != nn)) := rfl

theorem exec_se (x y : Reg) (s : State) : exec (.se x y) s = .next (s.skipIf (s.readV x == s.readV y)) := rfl

theorem exec_sne (x y : Reg) (s : State) : exec (.sne x y) s = .next (s.skipIf (s.readV x != s.readV y)) := rfl

/-! Load, arithmetic and logic. -/

theorem exec_ldi (x : Reg) (nn : Byte) (s : State) : exec (.ldi x nn) s = .next (s.writeV x nn).advance := rfl

theorem exec_addi (x : Reg) (nn : Byte) (s : State) :
    exec (.addi x nn) s = .next (s.writeV x (s.readV x + nn)).advance := rfl

theorem exec_mov (x y : Reg) (s : State) : exec (.mov x y) s = .next (s.writeV x (s.readV y)).advance := rfl

theorem exec_or (x y : Reg) (s : State) : exec (.or x y) s = .next (s.writeV x (s.readV x ||| s.readV y)).advance := rfl

theorem exec_and (x y : Reg) (s : State) :
    exec (.and x y) s = .next (s.writeV x (s.readV x &&& s.readV y)).advance := rfl

theorem exec_xor (x y : Reg) (s : State) :
    exec (.xor x y) s = .next (s.writeV x (s.readV x ^^^ s.readV y)).advance := rfl

theorem exec_add (x y : Reg) (s : State) :
    exec (.add x y) s =
      .next ((s.writeV x (s.readV x + s.readV y)).writeFlag (carryOut (s.readV x) (s.readV y))).advance := rfl

theorem exec_sub (x y : Reg) (s : State) :
    exec (.sub x y) s =
      .next ((s.writeV x (s.readV x - s.readV y)).writeFlag (noBorrow (s.readV x) (s.readV y))).advance := rfl

theorem exec_subn (x y : Reg) (s : State) :
    exec (.subn x y) s =
      .next ((s.writeV x (s.readV y - s.readV x)).writeFlag (noBorrow (s.readV y) (s.readV x))).advance := rfl

theorem exec_shr (x y : Reg) (s : State) :
    exec (.shr x y) s = .next ((s.writeV x (s.readV x >>> 1)).writeFlag (lowBit (s.readV x))).advance := rfl

theorem exec_shl (x y : Reg) (s : State) :
    exec (.shl x y) s = .next ((s.writeV x (s.readV x <<< 1)).writeFlag (highBit (s.readV x))).advance := rfl

theorem exec_rnd (x : Reg) (nn : Byte) (s : State) :
    exec (.rnd x nn) s = .next (s.countDraw.writeV x (Config.randByte s.draws &&& nn)).advance := rfl

/-! Index register and memory transfer. -/

theorem exec_lda (nnn : Addr) (s : State) : exec (.lda nnn) s = .next (s.setI (zextAddr nnn)).advance := rfl

theorem exec_adda (x : Reg) (s : State) :
    exec (.adda x) s =
      .next ((s.setI (s.I + zextByte (s.readV x))).writeFlag (indexOverflow s.I (s.readV x))).advance := rfl

theorem exec_font (x : Reg) (s : State) : exec (.font x) s = .next (s.setI (glyphAddress (s.readV x))).advance := rfl

theorem exec_bcd (x : Reg) (s : State) (h : s.I.toNat + 2 ≤ 0x0FFF) :
    exec (.bcd x) s = .next (s.storeBytes params (decimalDigits (s.readV x))).advance := by
  simp only [exec, execBcd, execBcdWith]
  rw [dataOutOfBounds_false (by omega)]
  rfl

theorem exec_bcd_fault (x : Reg) (s : State) (h : 0x0FFF < s.I.toNat + 2) :
    exec (.bcd x) s = .next { s with fault := some (.dataOutOfRange s.I s.pc) } := by
  simp only [exec, execBcd, execBcdWith]
  rw [dataOutOfBounds_true (by omega) (by omega)]
  rfl

theorem exec_stm (x : Reg) (s : State) (h : s.I.toNat + x.val ≤ 0x0FFF) :
    exec (.stm x) s = .next ((s.storeBytes params (blockOfRegs s x)).setI s.I).advance := by
  simp only [exec, execStm, execStmWith]
  rw [dataOutOfBounds_false (by omega)]
  rfl

theorem exec_stm_fault (x : Reg) (s : State) (h : 0x0FFF < s.I.toNat + x.val) :
    exec (.stm x) s = .next { s with fault := some (.dataOutOfRange s.I s.pc) } := by
  simp only [exec, execStm, execStmWith]
  rw [dataOutOfBounds_true (by omega) (by omega)]
  rfl

theorem exec_ldm (x : Reg) (s : State) (h : s.I.toNat + x.val ≤ 0x0FFF) :
    exec (.ldm x) s = .next ((s.loadRegs params x).setI s.I).advance := by
  simp only [exec, execLdm, execLdmWith]
  rw [dataOutOfBounds_false (by omega)]
  rfl

theorem exec_ldm_fault (x : Reg) (s : State) (h : 0x0FFF < s.I.toNat + x.val) :
    exec (.ldm x) s = .next { s with fault := some (.dataOutOfRange s.I s.pc) } := by
  simp only [exec, execLdm, execLdmWith]
  rw [dataOutOfBounds_true (by omega) (by omega)]
  rfl

/-! Display. -/

theorem exec_cls (s : State) : exec .cls s = .next (s.show blankFramebuffer).advance := rfl

theorem exec_drw (x y : Reg) (n : Nibble) (s : State) (h : n.toNat = 0 ∨ s.I.toNat + n.toNat - 1 ≤ 0x0FFF) :
    exec (.drw x y n) s =
      .next ((s.show (spriteDrawing params x y n s).fb).writeFlag (spriteDrawing params x y n s).hit).advance := by
  simp only [exec, execDrw, execDrwWith]
  rw [dataOutOfBounds_false h]
  rfl

theorem exec_drw_fault (x y : Reg) (n : Nibble) (s : State) (h0 : 1 ≤ n.toNat) (h : 0x0FFF < s.I.toNat + n.toNat - 1) :
    exec (.drw x y n) s = .next { s with fault := some (.dataOutOfRange s.I s.pc) } := by
  simp only [exec, execDrw, execDrwWith]
  rw [dataOutOfBounds_true h0 h]
  rfl

/-! Keys and timers. -/

theorem exec_skp (x : Reg) (s : State) (h : (s.readV x).toNat < 16) :
    exec (.skp x) s = .next (s.skipIf (s.keyDown ⟨(s.readV x).toNat, h⟩ == true)) := skipOnKey_of_lt true h

theorem exec_skp_fault (x : Reg) (s : State) (h : 16 ≤ (s.readV x).toNat) :
    exec (.skp x) s = .next { s with fault := some (.keyIndexOutOfRange (s.readV x) s.pc) } := skipOnKey_of_ge true h

theorem exec_sknp (x : Reg) (s : State) (h : (s.readV x).toNat < 16) :
    exec (.sknp x) s = .next (s.skipIf (s.keyDown ⟨(s.readV x).toNat, h⟩ == false)) := skipOnKey_of_lt false h

theorem exec_sknp_fault (x : Reg) (s : State) (h : 16 ≤ (s.readV x).toNat) :
    exec (.sknp x) s = .next { s with fault := some (.keyIndexOutOfRange (s.readV x) s.pc) } := skipOnKey_of_ge false h

theorem exec_waitk_none (x : Reg) (s : State) (h : ∀ k, s.keyDown k = false) : exec (.waitk x) s = .next s := by
  have hp : pickKey params s.draws (pressedKeys s) = none :=
    (pickKey_eq_none _ _ _).2 (List.filter_eq_nil_iff.2 fun k _ => by simp [h k])
  simp only [exec, execWaitk, execWaitkWith, hp]

theorem exec_waitk_some (x : Reg) (s : State) (h : ∃ k, s.keyDown k = true) :
    ∃ k, s.keyDown k = true ∧ exec (.waitk x) s = .next (s.countDraw.writeV x (keyByte k)).advance := by
  obtain ⟨k, hk⟩ := h
  cases hp : pickKey params s.draws (pressedKeys s) with
  | none =>
    have hm := (mem_pressedKeys s k).2 hk
    rw [(pickKey_eq_none _ _ _).1 hp] at hm
    cases hm
  | some j => exact ⟨j, (mem_pressedKeys s j).1 (pickKey_mem _ _ _ _ hp), by simp only [exec, execWaitk, execWaitkWith, hp]⟩

theorem exec_lddt (x : Reg) (s : State) : exec (.lddt x) s = .next (s.writeV x s.DT).advance := rfl

theorem exec_stdt (x : Reg) (s : State) : exec (.stdt x) s = .next (s.setDT (s.readV x)).advance := rfl

theorem exec_stst (x : Reg) (s : State) : exec (.stst x) s = .next (s.setST (s.readV x)).advance := rfl

end Sys2Proof.Machine
end

