-- ==== Sys2Proof/Laws/Fields.lean ====
section
/-!
SUPPORT. Laws/Fields: the fields of an instruction word as numbers (spec/30_encoding.md R91) agree with its digits.
-/

namespace Sys2Proof

/-- Words of four digits are equal exactly if their digits are. -/
theorem wordOf_inj {a b : Digits} : wordOf a = wordOf b ↔ a = b :=
  ⟨fun h => by rw [← digitsOf_wordOf a, h, digitsOf_wordOf], fun h => h ▸ rfl⟩

/-- Every word is the word of some digits. -/
theorem exists_wordOf (op : Word) : ∃ d, op = wordOf d := ⟨digitsOf op, (wordOf_digitsOf op).symm⟩

/-- A nibble appended on the right is the number times 16 plus the nibble. -/
theorem shiftLeft_or_nibble (a b : Nat) (hb : b < 16) : a <<< 4 ||| b = a * 16 + b := by
  rw [Nat.shiftLeft_eq, Nat.mul_comm, ← Nat.two_pow_add_eq_or_of_lt (by omega : b < 2 ^ 4)]

theorem toNat_wordOf (d : Digits) :
    (wordOf d).toNat = d.f.toNat * 4096 + d.x.toNat * 256 + d.y.toNat * 16 + d.n.toNat := by
  have hx := d.x.isLt
  have hy := d.y.isLt
  have hn := d.n.isLt
  simp only [wordOf, BitVec.toNat_append]
  rw [shiftLeft_or_nibble _ _ hx, shiftLeft_or_nibble _ _ hy, shiftLeft_or_nibble _ _ hn]
  omega

theorem toNat_immOf (y n : Nibble) : (immOf y n).toNat = y.toNat * 16 + n.toNat := by
  simp only [immOf, BitVec.toNat_append]
  exact shiftLeft_or_nibble _ _ n.isLt

theorem toNat_addrOf (x y n : Nibble) : (addrOf x y n).toNat = x.toNat * 256 + y.toNat * 16 + n.toNat := by
  simp only [addrOf, BitVec.toNat_append]
  rw [shiftLeft_or_nibble _ _ y.isLt, shiftLeft_or_nibble _ _ n.isLt]
  omega

theorem fieldX_wordOf (d : Digits) : fieldX (wordOf d) = regOf d.x := by
  have hx := d.x.isLt
  have hy := d.y.isLt
  have hn := d.n.isLt
  apply Fin.ext
  simp only [fieldX, toNat_wordOf, Fin.val_ofNat, regOf]
  show _ = d.x.toNat
  omega

theorem fieldY_wordOf (d : Digits) : fieldY (wordOf d) = regOf d.y := by
  have hy := d.y.isLt
  have hn := d.n.isLt
  apply Fin.ext
  simp only [fieldY, toNat_wordOf, Fin.val_ofNat, regOf]
  show _ = d.y.toNat
  omega

theorem fieldN_wordOf (d : Digits) : fieldN (wordOf d) = d.n := by
  have hn := d.n.isLt
  apply BitVec.eq_of_toNat_eq
  simp only [fieldN, toNat_wordOf, BitVec.toNat_ofNat]
  omega

theorem fieldNN_wordOf (d : Digits) : fieldNN (wordOf d) = immOf d.y d.n := by
  have hy := d.y.isLt
  have hn := d.n.isLt
  apply BitVec.eq_of_toNat_eq
  simp only [fieldNN, toNat_wordOf, BitVec.toNat_ofNat, toNat_immOf]
  omega

theorem fieldNNN_wordOf (d : Digits) : fieldNNN (wordOf d) = addrOf d.x d.y d.n := by
  have hx := d.x.isLt
  have hy := d.y.isLt
  have hn := d.n.isLt
  apply BitVec.eq_of_toNat_eq
  simp only [fieldNNN, toNat_wordOf, BitVec.toNat_ofNat, toNat_addrOf]
  omega

/-- Adding to pc from an address below 0x1000 does not wrap. -/
theorem toNat_add_of_le {pc : Word} {k : Nat} (hp : pc.toNat ≤ 0x0FFF) (hk : k ≤ 4) :
    (pc + BitVec.ofNat 16 k).toNat = pc.toNat + k := by
  rw [BitVec.toNat_add, BitVec.toNat_ofNat]
  omega

end Sys2Proof
end

