-- ==== Sys2Proof/Laws/PerInstr.lean ====
section
/-!
SUPPORT. Laws/PerInstr: the family RowFit. Every instruction's word matches its own row of the opcode map (spec/30_encoding.md R93, R94, R101).
-/

namespace Sys2Proof.Laws

/-- Digits under a mask of whole digits. -/
theorem wordOf_mask (f x y n : Nibble) :
    wordOf ⟨f, x, y, n⟩ &&& 0xF000 = wordOf ⟨f, 0, 0, 0⟩ ∧
    wordOf ⟨f, x, y, n⟩ &&& 0xF00F = wordOf ⟨f, 0, 0, n⟩ ∧
    wordOf ⟨f, x, y, n⟩ &&& 0xF0FF = wordOf ⟨f, 0, y, n⟩ := by
  have keep : ∀ d : Nibble, d &&& 0xF = d := by decide
  have drop : ∀ d : Nibble, d &&& 0x0 = 0x0 := by decide
  rw [show (0xF000 : Word) = wordOf ⟨0xF, 0x0, 0x0, 0x0⟩ from rfl, show (0xF00F : Word) = wordOf ⟨0xF, 0x0, 0x0, 0xF⟩ from rfl,
    show (0xF0FF : Word) = wordOf ⟨0xF, 0x0, 0xF, 0xF⟩ from rfl]
  simp only [wordOf_and, keep, drop, and_self]

/-- The instruction's word matches the instruction's row (spec/30_encoding.md R93). -/
def RowFit.Statement (i : Instr) : Prop := (opcodeRow i.mnemonic).matches (encode i) = true

/-- A word matches a row whose mask keeps its literal digits. -/
theorem fits {m : Mnemonic} {op masked : Word} (h : op &&& (opcodeRow m).mask = masked) (hb : masked = (opcodeRow m).bits) :
    (opcodeRow m).matches op = true := by
  rw [OpcodeRow.matches, h, hb, beq_self_eq_true]

theorem RowFit.cls : RowFit.Statement .cls := rfl
theorem RowFit.ret : RowFit.Statement .ret := rfl
theorem RowFit.jp (nnn : Addr) : RowFit.Statement (.jp nnn) := fits (wordOf_mask _ _ _ _).1 rfl
theorem RowFit.call (nnn : Addr) : RowFit.Statement (.call nnn) := fits (wordOf_mask _ _ _ _).1 rfl
theorem RowFit.sei (x : Reg) (nn : Byte) : RowFit.Statement (.sei x nn) := fits (wordOf_mask _ _ _ _).1 rfl
theorem RowFit.snei (x : Reg) (nn : Byte) : RowFit.Statement (.snei x nn) := fits (wordOf_mask _ _ _ _).1 rfl
theorem RowFit.se (x y : Reg) : RowFit.Statement (.se x y) := fits (wordOf_mask _ _ _ _).2.1 rfl
theorem RowFit.sne (x y : Reg) : RowFit.Statement (.sne x y) := fits (wordOf_mask _ _ _ _).2.1 rfl
theorem RowFit.ldi (x : Reg) (nn : Byte) : RowFit.Statement (.ldi x nn) := fits (wordOf_mask _ _ _ _).1 rfl
theorem RowFit.addi (x : Reg) (nn : Byte) : RowFit.Statement (.addi x nn) := fits (wordOf_mask _ _ _ _).1 rfl
theorem RowFit.mov (x y : Reg) : RowFit.Statement (.mov x y) := fits (wordOf_mask _ _ _ _).2.1 rfl
theorem RowFit.or (x y : Reg) : RowFit.Statement (.or x y) := fits (wordOf_mask _ _ _ _).2.1 rfl
theorem RowFit.and (x y : Reg) : RowFit.Statement (.and x y) := fits (wordOf_mask _ _ _ _).2.1 rfl
theorem RowFit.xor (x y : Reg) : RowFit.Statement (.xor x y) := fits (wordOf_mask _ _ _ _).2.1 rfl
theorem RowFit.add (x y : Reg) : RowFit.Statement (.add x y) := fits (wordOf_mask _ _ _ _).2.1 rfl
theorem RowFit.sub (x y : Reg) : RowFit.Statement (.sub x y) := fits (wordOf_mask _ _ _ _).2.1 rfl
theorem RowFit.shr (x y : Reg) : RowFit.Statement (.shr x y) := fits (wordOf_mask _ _ _ _).2.1 rfl
theorem RowFit.subn (x y : Reg) : RowFit.Statement (.subn x y) := fits (wordOf_mask _ _ _ _).2.1 rfl
theorem RowFit.shl (x y : Reg) : RowFit.Statement (.shl x y) := fits (wordOf_mask _ _ _ _).2.1 rfl
theorem RowFit.lda (nnn : Addr) : RowFit.Statement (.lda nnn) := fits (wordOf_mask _ _ _ _).1 rfl
theorem RowFit.jpv0 (nnn : Addr) : RowFit.Statement (.jpv0 nnn) := fits (wordOf_mask _ _ _ _).1 rfl
theorem RowFit.rnd (x : Reg) (nn : Byte) : RowFit.Statement (.rnd x nn) := fits (wordOf_mask _ _ _ _).1 rfl
theorem RowFit.drw (x y : Reg) (n : Nibble) : RowFit.Statement (.drw x y n) := fits (wordOf_mask _ _ _ _).1 rfl
theorem RowFit.skp (x : Reg) : RowFit.Statement (.skp x) := fits (wordOf_mask _ _ _ _).2.2 rfl
theorem RowFit.sknp (x : Reg) : RowFit.Statement (.sknp x) := fits (wordOf_mask _ _ _ _).2.2 rfl
theorem RowFit.lddt (x : Reg) : RowFit.Statement (.lddt x) := fits (wordOf_mask _ _ _ _).2.2 rfl
theorem RowFit.stdt (x : Reg) : RowFit.Statement (.stdt x) := fits (wordOf_mask _ _ _ _).2.2 rfl
theorem RowFit.stst (x : Reg) : RowFit.Statement (.stst x) := fits (wordOf_mask _ _ _ _).2.2 rfl
theorem RowFit.waitk (x : Reg) : RowFit.Statement (.waitk x) := fits (wordOf_mask _ _ _ _).2.2 rfl
theorem RowFit.adda (x : Reg) : RowFit.Statement (.adda x) := fits (wordOf_mask _ _ _ _).2.2 rfl
theorem RowFit.font (x : Reg) : RowFit.Statement (.font x) := fits (wordOf_mask _ _ _ _).2.2 rfl
theorem RowFit.bcd (x : Reg) : RowFit.Statement (.bcd x) := fits (wordOf_mask _ _ _ _).2.2 rfl
theorem RowFit.stm (x : Reg) : RowFit.Statement (.stm x) := fits (wordOf_mask _ _ _ _).2.2 rfl
theorem RowFit.ldm (x : Reg) : RowFit.Statement (.ldm x) := fits (wordOf_mask _ _ _ _).2.2 rfl

end Sys2Proof.Laws
end

