-- ==== Sys2Proof/Tests/Slice0.lean ====
section
/-!
SUPPORT. Tests/Slice0: small checks with expected results from spec/30_encoding.md and spec/95_test_vectors.md (its vector named in each comment), and a concrete case meeting the hypotheses of every statement that has any.
-/

namespace Sys2Proof.Tests

open Sys2Proof Sys2Proof.Machine

/-! Helpers. -/

/-- The state an operation answers, or `s` where it answers none. -/
def after (o : Out) (s : State) : State :=
  match o with
  | .next t => t
  | _ => s

/-- One step of `s` with the word where the step fetches. -/
def run (w : Nat) (s : State) : State := after (step (s.withFetchWord 16 w)) s

/-- The diagnostic of that step. -/
def diagOf (w : Nat) (s : State) : Option Diag := stepDiag (s.withFetchWord 16 w)

/-- Reset with one register set. -/
def reg1 (x : Reg) (v : Byte) : State := State.reset.writeV x v

/-- Reset with two registers set. -/
def reg2 (x : Reg) (v : Byte) (y : Reg) (w : Byte) : State := (reg1 x v).writeV y w

/-- `s` with some bytes stored. -/
def bytesAt (a : Nat) (bs : List Byte) (s : State) : State := { s with mem := s.mem.copy a bs }

/-- `s` with a pixel set. -/
def lit (x : Fin 64) (y : Fin 32) (s : State) : State := { s with fb := togglePixel s.fb x y }

/-- `s` with `n` copies of 0x0456 on the stack. -/
def stacked (n : Fin 17) (s : State) : State := { s with stack := Vector.replicate 16 0x0456, sp := n }

/-- Reset with I set. -/
def indexed (i : Word) : State := { State.reset with I := i }

/-! WellFormed: an ill-formed line for each check of spec/30_encoding.md R97. -/

theorem test_wf_register : (AsmLine.ins .mov [.reg 16, .reg 0]).wf = false := by decide

theorem test_wf_second_register : (AsmLine.ins .mov [.reg 0, .reg 16]).wf = false := by decide

theorem test_wf_single_register : (AsmLine.ins .ldm [.reg 16]).wf = false := by decide

theorem test_wf_byte : (AsmLine.ins .ldi [.reg 0, .num 256]).wf = false := by decide

theorem test_wf_byte_register : (AsmLine.ins .ldi [.reg 16, .num 0]).wf = false := by decide

theorem test_wf_address : (AsmLine.ins .jp [.num 0x1000]).wf = false := by decide

theorem test_wf_nibble : (AsmLine.ins .drw [.reg 0, .reg 1, .num 16]).wf = false := by decide

theorem test_wf_sprite_registers :
    (AsmLine.ins .drw [.reg 16, .reg 1, .num 1]).wf = false ∧ (AsmLine.ins .drw [.reg 1, .reg 16, .num 1]).wf = false := by
  decide

theorem test_wf_kind : (AsmLine.ins .jp [.reg 1]).wf = false ∧ (AsmLine.ins .skp [.num 1]).wf = false := by decide

theorem test_wf_count : (AsmLine.ins .cls [.reg 0]).wf = false ∧ (AsmLine.ins .add [.reg 0]).wf = false := by decide

theorem test_wf_shift_left_alone : (AsmLine.ins .shl [.reg 0]).wf = false := by decide

theorem test_wf_shift_right_alone : (AsmLine.ins .shr [.reg 15]).wf = true ∧ (AsmLine.ins .shr [.reg 16]).wf = false := by
  decide

theorem test_wf_data : (AsmLine.db 256).wf = false ∧ (AsmLine.db 255).wf = true := by decide

/-- R98's first line, and a shift written with one operand. -/
theorem test_assemble : assembleLine (.ins .addi [.reg 0, .num 1]) = some [0x70, 0x01] ∧
    assembleLine (.ins .shr [.reg 1]) = some [0x81, 0x06] := by decide

/-- The ROM bytes of 95_test_vectors.md P5. -/
theorem test_assemble_program : assemble [.db 0x01, .db 0x23, .ins .ret []] = some [0x01, 0x23, 0x00, 0xEE] := by decide

theorem test_assemble_refuses : assemble [.ins .cls [], .ins .jp [.num 0x1000]] = none := by decide

/-! Decoding: every row's word written out from its pattern in spec/30_encoding.md R94. -/

theorem test_decode_screen : decode 0b0000000011100000 = some .cls ∧ decode 0b0000000011101110 = some .ret := by decide

theorem test_decode_address : decode 0b0001101010111100 = some (.jp 0xABC) ∧ decode 0b0010000100100011 = some (.call 0x123) ∧
    decode 0b1010001011110000 = some (.lda 0x2F0) ∧ decode 0b1011111000000001 = some (.jpv0 0xE01) := by decide

theorem test_decode_immediate :
    decode 0b0011011110001001 = some (.sei 7 0x89) ∧ decode 0b0100000111111110 = some (.snei 1 0xFE) ∧
    decode 0b0110101000111100 = some (.ldi 0xA 0x3C) ∧ decode 0b0111111100000001 = some (.addi 0xF 0x01) ∧
    decode 0b1100001000001111 = some (.rnd 2 0x0F) := by decide

theorem test_decode_registers : decode 0b0101000100100000 = some (.se 1 2) ∧ decode 0b1001111000110000 = some (.sne 0xE 3) := by
  decide

theorem test_decode_logic : decode 0b1000000100100000 = some (.mov 1 2) ∧ decode 0b1000010011010001 = some (.or 4 0xD) ∧
    decode 0b1000000100100010 = some (.and 1 2) ∧ decode 0b1000100000010011 = some (.xor 8 1) := by decide

theorem test_decode_arithmetic :
    decode 0b1000101010110100 = some (.add 0xA 0xB) ∧ decode 0b1000000100100101 = some (.sub 1 2) ∧
    decode 0b1000000100100110 = some (.shr 1 2) ∧ decode 0b1000000100100111 = some (.subn 1 2) ∧
    decode 0b1000000100101110 = some (.shl 1 2) := by decide

theorem test_decode_sprite : decode 0b1101000100100101 = some (.drw 1 2 5) := by decide

theorem test_decode_keys : decode 0b1110010010011110 = some (.skp 4) ∧ decode 0b1110010010100001 = some (.sknp 4) ∧
    decode 0b1111001100001010 = some (.waitk 3) := by decide

theorem test_decode_timers : decode 0b1111010100000111 = some (.lddt 5) ∧ decode 0b1111010100010101 = some (.stdt 5) ∧
    decode 0b1111011000011000 = some (.stst 6) := by decide

theorem test_decode_index : decode 0b1111001000011110 = some (.adda 2) ∧ decode 0b1111001100101001 = some (.font 3) ∧
    decode 0b1111001000110011 = some (.bcd 2) ∧ decode 0b1111001001010101 = some (.stm 2) ∧
    decode 0b1111001001100101 = some (.ldm 2) := by decide

/-- The unrecognised words T4 to T15. -/
theorem test_decode_unrecognised :
    ([0x0000, 0x0123, 0x00E1, 0x01E0, 0x00FF, 0x5121, 0x9121, 0x8008, 0x800F, 0xE09F, 0xF000, 0xF075] : List Word).all
      (fun op => decode op == none) = true := by decide

theorem test_encode : encode (.drw 1 2 5) = 0xD125 ∧ encodeBytes (.call 0x20A) = [0x22, 0x0A] ∧ encode .ret = 0x00EE := by
  decide

theorem test_decode_truncated : decodeBytes [0x00] = .reject .truncated := by decide

theorem test_table_word : decodeTableWord 16 0x220A = some (.call 0x20A) ∧ decodeTableWord 16 0x0123 = none := by decide

/-! Reset and fetch. -/

theorem test_reset_memory : State.reset.mem.wf = true ∧ State.reset.mem.read 0x32 = 0xF0 ∧ State.reset.mem.read 79 = 0x80 ∧
    State.reset.mem.read 80 = 0 := by decide

theorem test_memory_keeps_form : ((State.reset.mem.write 0x300 5).write 0x300 0) = State.reset.mem ∧
    ((State.reset.mem.write 0x301 7).write 0x300 5) = [(0x300, 5), (0x301, 7)] := by decide

/-- T1. -/
theorem test_fetch_last : (run 0x6000 { State.reset with pc := 0x0FFE }).pc = 0x1000 := by decide

/-- T2. -/
theorem test_fetch_out_of_range : (after (step { State.reset with pc := 0x0FFF }) State.reset).fault =
    some (.fetchOutOfRange 0x0FFF) := by decide

/-- T5. -/
theorem test_unrecognised : (run 0x0123 State.reset).pc = 0x202 ∧
    diagOf 0x0123 State.reset = some { op := 0x0123, addr := 0x200 } := by decide

/-- T16. -/
theorem test_halted : step { State.reset with fault := some (.stackUnderflow 0x202), pc := 0x202 } =
    .next { State.reset with fault := some (.stackUnderflow 0x202), pc := 0x202 } := rfl

/-- T17. -/
theorem test_odd_pc : (run 0x6107 { State.reset with pc := 0x201 }).pc = 0x203 ∧
    (run 0x6107 { State.reset with pc := 0x201 }).readV 1 = 7 := by decide

/-! One step of each instruction. -/

/-- J1, J3. -/
theorem test_jp : (run 0x1ABC State.reset).pc = 0x0ABC ∧ (run 0x1FFF State.reset).pc = 0x0FFF := by decide

/-- J4. -/
theorem test_call : (run 0x220A { State.reset with pc := 0x204 }).pc = 0x20A ∧
    (run 0x220A { State.reset with pc := 0x204 }).stack[0] = 0x0206 ∧
    (run 0x220A { State.reset with pc := 0x204 }).sp = 1 := by decide

/-- J6. -/
theorem test_call_full : (run 0x2ABC (stacked 16 State.reset)).fault = some (.stackOverflow 0x200) ∧
    (run 0x2ABC (stacked 16 State.reset)).sp = 16 := by decide

/-- J8. -/
theorem test_ret : (run 0x00EE (stacked 16 State.reset)).pc = 0x456 ∧ (run 0x00EE (stacked 16 State.reset)).sp = 15 := by
  decide

/-- J9. -/
theorem test_ret_empty : (run 0x00EE State.reset).fault = some (.stackUnderflow 0x200) := by decide

/-- J10, J11. -/
theorem test_sei : (run 0x332A (reg1 3 0x2A)).pc = 0x204 ∧ (run 0x332A (reg1 3 0x2B)).pc = 0x202 := by decide

/-- J13, J14. -/
theorem test_snei : (run 0x432A (reg1 3 0x2A)).pc = 0x202 ∧ (run 0x432A State.reset).pc = 0x204 := by decide

/-- J16, J17. -/
theorem test_se : (run 0x5120 (reg2 1 7 2 7)).pc = 0x204 ∧ (run 0x5120 (reg2 1 7 2 8)).pc = 0x202 := by decide

/-- J19, J20. -/
theorem test_sne : (run 0x9120 (reg2 1 7 2 8)).pc = 0x204 ∧ (run 0x9120 (reg2 1 7 2 7)).pc = 0x202 := by decide

/-- J22, J23. -/
theorem test_jpv0 : (run 0xB300 (reg1 0 0x04)).pc = 0x0304 ∧ (run 0xBFFF (reg1 0 0xFF)).pc = 0x10FE := by decide

/-- A1, A2. -/
theorem test_ldi : (run 0x6A3C State.reset).readV 0xA = 0x3C ∧ (run 0x6F00 (reg1 15 1)).readV 15 = 0 := by decide

/-- A3, A5. -/
theorem test_addi : (run 0x7001 (reg2 0 0xFF 15 1)).readV 0 = 0 ∧ (run 0x7001 (reg2 0 0xFF 15 1)).readV 15 = 1 ∧
    (run 0x7FFF (reg1 15 1)).readV 15 = 0 := by decide

/-- A6. -/
theorem test_mov : (run 0x8120 (reg1 2 0x7F)).readV 1 = 0x7F := by decide

/-- A7. -/
theorem test_or : (run 0x8121 ((reg2 1 0xF0 2 0x0F).writeV 15 1)).readV 1 = 0xFF ∧
    (run 0x8121 ((reg2 1 0xF0 2 0x0F).writeV 15 1)).readV 15 = 1 := by decide

/-- A8. -/
theorem test_and : (run 0x8122 (reg2 1 0xF0 2 0x3C)).readV 1 = 0x30 := by decide

/-- A9, A10. -/
theorem test_xor : (run 0x8123 (reg2 1 0xF0 2 0x3C)).readV 1 = 0xCC ∧ (run 0x8113 (reg1 1 0xAA)).readV 1 = 0 := by decide

/-- A12. -/
theorem test_add : (run 0x8124 (reg2 1 0xFF 2 0xFF)).readV 1 = 0xFE ∧
    (run 0x8124 (reg2 1 0xFF 2 0xFF)).readV 15 = 1 := by decide

/-- A14, A15. -/
theorem test_add_vf : (run 0x8F14 (reg2 15 0xFF 1 1)).readV 15 = 1 ∧ (run 0x81F4 (reg2 1 0x10 15 1)).readV 1 = 0x11 ∧
    (run 0x81F4 (reg2 1 0x10 15 1)).readV 15 = 0 := by decide

/-- A17, A18. -/
theorem test_sub : (run 0x8125 (reg2 1 1 2 3)).readV 1 = 0xFE ∧ (run 0x8125 (reg2 1 1 2 3)).readV 15 = 0 ∧
    (run 0x8115 (reg1 1 0x33)).readV 15 = 1 := by decide

/-- A20. -/
theorem test_sub_vf : (run 0x8F15 (reg2 15 3 1 5)).readV 15 = 0 := by decide

/-- A21, A22. -/
theorem test_shr : (run 0x8126 (reg2 1 5 2 0xF0)).readV 1 = 2 ∧ (run 0x8126 (reg2 1 5 2 0xF0)).readV 15 = 1 ∧
    (run 0x8126 (reg1 1 0x80)).readV 1 = 0x40 := by decide

/-- A24; the setting SHIFT_SOURCE = VY of A21. -/
theorem test_shr_vf : (run 0x8FF6 (reg1 15 3)).readV 15 = 1 ∧
    (after (execShrWith { params with shiftSource := .vy } 1 2 (reg2 1 5 2 0xF0)) State.reset).readV 1 = 0x78 := by decide

/-- A27. -/
theorem test_subn : (run 0x8127 (reg2 1 5 2 3)).readV 1 = 0xFE ∧ (run 0x8127 (reg2 1 5 2 3)).readV 15 = 0 := by decide

/-- A28, A29. -/
theorem test_subn_vf : (run 0x81F7 (reg2 1 3 15 5)).readV 1 = 2 ∧ (run 0x81F7 (reg2 1 3 15 5)).readV 15 = 1 ∧
    (run 0x8F17 (reg2 15 3 1 5)).readV 15 = 1 := by decide

/-- A30, A31. -/
theorem test_shl : (run 0x812E (reg2 1 0x81 2 0x0F)).readV 1 = 2 ∧ (run 0x812E (reg2 1 0x81 2 0x0F)).readV 15 = 1 ∧
    (run 0x812E (reg1 1 0x40)).readV 15 = 0 := by decide

/-- A32; the setting SHIFT_SOURCE = VY of A30. -/
theorem test_shl_vf : (run 0x8FFE (reg1 15 0x81)).readV 15 = 1 ∧
    (after (execShlWith { params with shiftSource := .vy } 1 2 (reg2 1 0x81 2 0x0F)) State.reset).readV 1 = 0x1E := by decide

/-- A35: whatever the draw. -/
theorem test_rnd : (run 0xC100 (reg1 1 7)).readV 1 = 0 := BitVec.and_zero

/-- M1. -/
theorem test_lda : (run 0xA2F0 { State.reset with I := 0xFFFF }).I = 0x02F0 := by decide

/-- M3, M5. -/
theorem test_adda : (run 0xF21E { reg1 2 0x10 with I := 0x0FF0 }).I = 0x1000 ∧
    (run 0xF21E { reg1 2 0x10 with I := 0x0FF0 }).readV 15 = 1 ∧
    (run 0xF01E { State.reset with I := 0x1000 }).readV 15 = 1 := by decide

/-- M7. -/
theorem test_adda_vf : (run 0xFF1E { reg1 15 0x20 with I := 0x0100 }).I = 0x0120 ∧
    (run 0xFF1E { reg1 15 0x20 with I := 0x0100 }).readV 15 = 0 := by decide

/-- M8, M10. -/
theorem test_font : (run 0xF329 (reg1 3 0x0A)).I = 0x0032 ∧ (run 0xF029 (reg1 0 0xFF)).I = 0x04FB := by decide

/-- S6. -/
theorem test_bcd : (run 0xF233 { reg1 2 157 with I := 0x300 }).mem.read 0x300 = 1 ∧
    (run 0xF233 { reg1 2 157 with I := 0x300 }).mem.read 0x301 = 5 ∧
    (run 0xF233 { reg1 2 157 with I := 0x300 }).mem.read 0x302 = 7 := by decide

/-- M14. -/
theorem test_bcd_out_of_range : (run 0xF033 { reg1 0 255 with I := 0x0FFE }).fault =
    some (.dataOutOfRange 0x0FFE 0x200) := by decide

/-- M15. -/
theorem test_stm : (run 0xF155 { reg2 0 0x11 1 0x22 with I := 0x300 }).mem.read 0x301 = 0x22 ∧
    (run 0xF155 { reg2 0 0x11 1 0x22 with I := 0x300 }).mem.read 0x302 = 0 ∧
    (run 0xF155 { reg2 0 0x11 1 0x22 with I := 0x300 }).I = 0x300 := by decide

/-- M18. -/
theorem test_stm_out_of_range : (run 0xFF55 { State.reset with I := 0x0FF1 }).fault =
    some (.dataOutOfRange 0x0FF1 0x200) := by decide

/-- M19. -/
theorem test_ldm : (run 0xF265 { bytesAt 0x300 [1, 5, 7, 9] (reg1 3 0xEE) with I := 0x300 }).readV 2 = 7 ∧
    (run 0xF265 { bytesAt 0x300 [1, 5, 7, 9] (reg1 3 0xEE) with I := 0x300 }).readV 3 = 0xEE := by decide

/-- M20, M21. -/
theorem test_ldm_edge : (run 0xF065 { bytesAt 0x0FFF [0xAB] State.reset with I := 0x0FFF }).readV 0 = 0xAB ∧
    (run 0xF165 { State.reset with I := 0x0FFF }).fault = some (.dataOutOfRange 0x0FFF 0x200) := by decide

/-- G1. -/
theorem test_cls : pixelAt (run 0x00E0 (lit 3 3 State.reset)).fb 3 3 = false ∧
    (run 0x00E0 (lit 3 3 State.reset)).redraw = true := by decide

/-- G5, G8: the wrap, and the collision. -/
theorem test_drw : pixelAt (run 0xD011 { bytesAt 0x300 [0xC0] (reg1 0 63) with I := 0x300 }).fb 63 0 = true ∧
    pixelAt (run 0xD011 { bytesAt 0x300 [0xC0] (reg1 0 63) with I := 0x300 }).fb 0 0 = true ∧
    (run 0xD011 { bytesAt 0x300 [0xC0] (lit 1 0 State.reset) with I := 0x300 }).readV 15 = 1 := by decide

/-- G11, G13. -/
theorem test_drw_bounds : (run 0xD010 { reg1 15 1 with I := 0x1000 }).readV 15 = 0 ∧
    (run 0xD012 { State.reset with I := 0x0FFF }).fault = some (.dataOutOfRange 0x0FFF 0x200) := by decide

/-- K1, K2. -/
theorem test_skp : (run 0xE49E ((reg1 4 7).setKey 7 true)).pc = 0x204 ∧ (run 0xE49E (reg1 4 7)).pc = 0x202 := by decide

/-- K4. -/
theorem test_skp_no_key : (run 0xE09E (reg1 0 16)).fault = some (.keyIndexOutOfRange 16 0x200) := by decide

/-- K5, K6. -/
theorem test_sknp : (run 0xE4A1 (reg1 4 7)).pc = 0x204 ∧ (run 0xE4A1 ((reg1 4 7).setKey 7 true)).pc = 0x202 := by decide

/-- K7. -/
theorem test_sknp_no_key : (run 0xE0A1 (reg1 0 255)).fault = some (.keyIndexOutOfRange 255 0x200) := by decide

/-- K8. -/
theorem test_waitk_none : (run 0xF30A (reg1 3 0x55)).pc = 0x200 ∧ (run 0xF30A (reg1 3 0x55)).readV 3 = 0x55 := by decide

/-- K10, at KEY_PICK = lowest. -/
theorem test_waitk_lowest : (after (execWaitkWith { params with keyPick := .lowest } 3
    ((State.reset.setKey 3 true).setKey 9 true)) State.reset).readV 3 = 3 := by decide

/-- K12. -/
theorem test_lddt : (run 0xF507 { State.reset with DT := 0x2D }).readV 5 = 0x2D := by decide

/-- K13. -/
theorem test_stdt : (run 0xF515 { reg1 5 0xFF with DT := 3 }).DT = 0xFF := by decide

/-- K14. -/
theorem test_stst : (run 0xF618 (reg1 6 3)).ST = 3 ∧ (run 0xF618 (reg1 6 3)).tone = false := by decide

/-- The codes of 60_exceptions.md R231, row by row. -/
theorem test_codes : (Fault.stackOverflow 0).code = 1 ∧ (Fault.stackUnderflow 0).code = 2 ∧
    (Fault.fetchOutOfRange 0).code = 3 ∧ (Fault.dataOutOfRange 0 0).code = 4 ∧ (Fault.keyIndexOutOfRange 0 0).code = 5 ∧
    (diagOf 0x0123 State.reset).map Diag.code = some 6 ∧ (LoadResult.outOfRange 3585).code = some 7 ∧
    LoadResult.ok.code = none := by decide

/-! The host's operations. -/

/-- H1, H2, and the third tick of H3. -/
theorem test_tick : (State.tickTimers { State.reset with DT := 1 }).DT = 0 ∧ State.reset.tickTimers.DT = 0 ∧
    (State.tickTimers { State.reset with ST := 1 }).tone = true ∧ (State.tickTimers { State.reset with ST := 1 }).ST = 0 := by
  decide

/-- H6, H7. -/
theorem test_key_and_redraw : (State.reset.setKey 4 true).keyDown 4 = true ∧
    (State.clearRedraw { State.reset with redraw := true }).redraw = false := by decide

/-- H8. -/
theorem test_reset : operate .reset { stacked 16 (lit 3 3 (reg1 3 9)) with fault := some (.stackOverflow 0x200) } =
    .next State.reset := rfl

/-- H12. -/
theorem test_load : (after (operate (.load [0x12, 0x34]) State.reset) State.reset).mem.read 0x201 = 0x34 := by decide

/-- H10. -/
theorem test_load_too_long : loadResult (List.replicate 3585 0) = .outOfRange 3585 := by
  unfold loadResult
  rw [List.length_replicate]
  rfl

/-- 70_reset_and_hazards.md R282, R283. -/
theorem test_refused : operate (.load []) { State.reset with started := true } = .refused .loadAfterStep ∧
    operateSession .step .unpowered = .refused .beforeFirstReset := ⟨rfl, rfl⟩

/-- 60_exceptions.md R247: index y * 64 + x. -/
theorem test_pixels : (framebufferBytes (lit 1 0 State.reset).fb).take 3 = [0, 1, 0] := by decide

/-! Every statement with hypotheses has a case that meets them all; where it has several clauses, one for each, at a bound of its range. -/

/-- The last address a fetch may start at, with an instruction there. -/
def atLast (w : Nat) (s : State) : State := { s with pc := 0x0FFE }.withFetchWord 16 w

theorem witness_EncodeInvertsDecode : decode 0xFF65 = some (.ldm 15) := by decide

theorem witness_OneRowPerRecognisedWord : decode 0x00EE = some .ret ∧ decode 0x00EF = none ∧
    (opcodeRow .ret).matches 0x00EE = true := by decide

theorem witness_WellFormedLineAssemblesToItsRow : (AsmLine.ins .shr [.reg 15]).wf = true ∧
    (AsmLine.ins .cls []).wf = true ∧ (AsmLine.ins .jp [.num 0xFFF]).wf = true ∧ (AsmLine.ins .ldi [.reg 15, .num 255]).wf = true ∧
    (AsmLine.ins .drw [.reg 15, .reg 0, .num 15]).wf = true ∧ (AsmLine.ins .skp [.reg 0]).wf = true := by decide

theorem witness_StepRunsDecodedInstruction : (atLast 0x6000 State.reset).fault = none ∧
    (atLast 0x6000 State.reset).pc.toNat + 1 ≤ 0x0FFF ∧
    decodeBytes [(atLast 0x6000 State.reset).mem.read (atLast 0x6000 State.reset).pc.toNat,
      (atLast 0x6000 State.reset).mem.read ((atLast 0x6000 State.reset).pc.toNat + 1)] = .instr (.ldi 0 0) [] := by decide

theorem witness_FetchOutOfRangeFaults :
    (0x0FFF < (State.reset.jump 0x0FFF).pc.toNat + 1 ∧ (State.reset.jump 0x0FFF).fault = none) ∧
    (atLast 0x6000 State.reset).fault = none ∧ (atLast 0x6000 State.reset).pc.toNat + 1 ≤ 0x0FFF ∧
    ∃ t, step (atLast 0x6000 State.reset) = .next t := ⟨by decide, by decide, by decide, _, rfl⟩

theorem witness_UnrecognisedWordAdvances : (atLast 0x0000 State.reset).fault = none ∧
    (atLast 0x0000 State.reset).pc.toNat + 1 ≤ 0x0FFF ∧ decode (atLast 0x0000 State.reset).fetchWord = none ∧
    stepDiag (atLast 0x0000 State.reset) = some { op := 0x0000, addr := 0x0FFE } := by decide

/-- Reset with a jump to itself at 0x200. -/
def idle : State := State.reset.withFetchWord 16 0x1200

/-- `idle` halted, after a step. -/
def halted : State := { idle with fault := some (.stackUnderflow 0x200), started := true }

theorem witness_EndedRunsStayAsTheyAre : Faulted halted ∧ Idle idle ∧
    Idle { idle with started := true } ∧ State.started { idle with started := true } = true :=
  ⟨nofun, ⟨by decide, by decide, 0x200, by decide, by decide⟩, ⟨by decide, by decide, 0x200, by decide, by decide⟩, rfl⟩

theorem witness_FaultingStepKeepsAllElse : ∃ t, State.reset.fault = none ∧
    step (State.reset.withFetchWord 16 0x00EE) = .next t ∧ t.fault ≠ none := ⟨_, rfl, rfl, by decide⟩

theorem witness_StepFaultsExactlyWhenUnsafe : State.reset.fault = none ∧
    (∃ t, step (State.reset.withFetchWord 16 0x00EE) = .next t ∧ t.fault ≠ none) ∧
    ∃ t, step (State.reset.withFetchWord 16 0x6000) = .next t ∧ t.fault = none := ⟨rfl, ⟨_, rfl, by decide⟩, _, rfl, rfl⟩

theorem witness_JumpSetsPc : (0x1FFF : Word) &&& 0xF000 = 0x1000 ∧ (0x200 : Addr).toNat = State.reset.pc.toNat ∧
    (0xFFF : Addr) = 0xFFF ∧ State.reset.fault = none := by decide

theorem witness_CallPushesReturnAddress : (stacked 15 State.reset).sp.val < 16 ∧
    (14 : Fin 16).val ≠ (stacked 15 State.reset).sp.val := by decide

theorem witness_ReturnPopsPc : (stacked 16 State.reset).sp.val = (15 : Fin 16).val + 1 ∧
    (stacked 1 State.reset).sp.val = (0 : Fin 16).val + 1 := by decide

theorem witness_StackFaults : (stacked 16 State.reset).sp.val = 16 ∧ State.reset.sp.val = 0 := by decide

theorem witness_CallThenReturn : ∃ t, (stacked 15 State.reset).sp.val < 16 ∧
    exec (.call 0xFFF) (stacked 15 State.reset) = .next t ∧ (14 : Fin 16).val < (stacked 15 State.reset).sp.val :=
  ⟨_, by decide, rfl, by decide⟩

theorem witness_SkipOnImmediate : (0x3FFF : Word) &&& 0xF000 = 0x3000 ∧ (0x4000 : Word) &&& 0xF000 = 0x4000 ∧
    (reg1 15 255).readV 15 = 255 ∧ (reg1 15 255).readV 15 ≠ 254 := by decide

theorem witness_SkipOnRegisters : (0x5FF0 : Word) &&& 0xF00F = 0x5000 ∧ (0x9FF0 : Word) &&& 0xF00F = 0x9000 ∧
    ((0x5FF1 : Word) &&& 0xF000 = 0x5000 ∧ (0x5FF1 : Word) &&& 0x000F ≠ 0) ∧
    ((0x9FFF : Word) &&& 0xF000 = 0x9000 ∧ (0x9FFF : Word) &&& 0x000F ≠ 0) ∧
    (reg1 15 255).readV 15 ≠ (reg1 15 255).readV 0 ∧ (reg1 15 255).readV 1 = (reg1 15 255).readV 0 := by decide

theorem witness_LoadAndAddImmediate : (0x6FFF : Word) &&& 0xF000 = 0x6000 ∧ (0x7000 : Word) &&& 0xF000 = 0x7000 := by decide

theorem witness_AssignRegister : (0x8FF0 : Word) &&& 0xF00F = 0x8000 ∧ (15 : Reg) = 15 := by decide

theorem witness_BitwiseLogic : (0x8FF1 : Word) &&& 0xF00F = 0x8001 ∧ (0x8FF2 : Word) &&& 0xF00F = 0x8002 ∧
    (0x8FF3 : Word) &&& 0xF00F = 0x8003 ∧ 7 < 8 ∧ (15 : Reg) = 15 := by decide

theorem witness_AddAndSubtractWithFlag : (14 : Reg) ≠ vf := by decide

theorem witness_ShiftWithFlag : (0 : Reg) ≠ vf := by decide

theorem witness_RandomByteUnderMask : (0x7F : Byte).getLsbD 7 = false := by decide

theorem witness_OtherParameterSettings : (14 : Reg) ≠ vf ∧
    (indexed 0x0FF0).I.toNat + (15 : Reg).val ≤ 0x0FFF := by decide

theorem witness_LoadIndex : (0xAFFF : Word) &&& 0xF000 = 0xA000 := by decide

theorem witness_DecimalDigitsStored : (indexed 0x0FFD).mem.wf = true ∧ (indexed 0x0FFD).I.toNat + 2 ≤ 0x0FFF := by decide

theorem witness_RegistersStored : (indexed 0x0FF0).mem.wf = true ∧
    (indexed 0x0FF0).I.toNat + (15 : Reg).val ≤ 0x0FFF ∧ (15 : Reg) ≤ 15 := by decide

theorem witness_RegistersLoaded : (indexed 0x0FFF).I.toNat + (0 : Reg).val ≤ 0x0FFF ∧ (0 : Reg) ≤ 0 ∧
    (0 : Reg) < 1 := by decide

theorem witness_DataOutOfRangeFaults : 0x0FFF < (indexed 0x0FFE).I.toNat + 2 ∧
    0x0FFF < (indexed 0x0FF1).I.toNat + (15 : Reg).val ∧ 1 ≤ (1 : Nibble).toNat ∧
    0x0FFF < (indexed 0x1000).I.toNat + (1 : Nibble).toNat - 1 := by decide

/-- Both clauses, with the stored bytes over the next fetch: whole, its high byte, its low byte, and the last bytes of memory. -/
theorem witness_StoredBytesAreFetchedNext : (indexed 0x0202).mem.wf = true ∧ (indexed 0x0202).I.toNat + 2 ≤ 0x0FFF ∧
    overlaid (indexed 0x0202) 3 (decimalDigit 157) 0x0202 = 1 ∧ overlaid (indexed 0x0200) 3 (decimalDigit 157) 0x0202 = 7 ∧
    overlaid (indexed 0x0203) 1 (registerNumber (reg1 0 9)) 0x0202 = 0 ∧
    overlaid (indexed 0x0203) 1 (registerNumber (reg1 0 9)) 0x0203 = 9 ∧ (indexed 0x0FFD).I.toNat + 2 ≤ 0x0FFF ∧
    (indexed 0x0FF0).I.toNat + (15 : Reg).val ≤ 0x0FFF ∧ (indexed 0x0FFF).I.toNat + (0 : Reg).val ≤ 0x0FFF := by decide

/-- FX33 over the next instruction's low byte, FX55 over its high byte. -/
theorem test_stored_bytes_fetched : (run 0xF233 { reg1 2 157 with I := 0x203 }).fetchWord = 0x0001 ∧
    (run 0xF055 { reg1 0 0x12 with I := 0x202 }).fetchWord = 0x1200 := by decide

theorem witness_ClearScreen : (0x00E0 : Word) &&& 0xFFFF = 0x00E0 := by decide

/-- A sprite byte 0xC0 at 0x300 and I on it. -/
def sprite : State := { bytesAt 0x300 [0xC0] State.reset with I := 0x300 }

/-- The drawing of `sprite` at V0, V1. -/
def drawn : State := run 0xD011 sprite

theorem witness_SpriteDrawn : ((0 : Nibble).toNat = 0 ∨ (indexed 0xFFFF).I.toNat + (0 : Nibble).toNat - 1 ≤ 0x0FFF) ∧
    ((15 : Nibble).toNat = 0 ∨ (indexed 0x0FF1).I.toNat + (15 : Nibble).toNat - 1 ≤ 0x0FFF) ∧
    (63 : Fin 64).val = (((reg1 0 255).readV 0).toNat + 0) % 64 ∧ (31 : Fin 32).val = (((reg1 0 255).readV 0).toNat + 0) % 32 ∧
    (∃ u v, pixelAt drawn.fb u v = true ∧ pixelAt (run 0xD011 drawn).fb u v = false) ∧
    ¬ ∃ u v, pixelAt State.reset.fb u v = true ∧ pixelAt drawn.fb u v = false :=
  ⟨by decide, by decide, by decide, by decide, ⟨0, 0, by decide, by decide⟩,
    fun ⟨u, v, h, _⟩ => absurd h (by simp [pixelAt, State.reset, blankFramebuffer])⟩

theorem witness_SpriteDrawnTwice : ∃ t, (0 : Reg) ≠ vf ∧ (1 : Reg) ≠ vf ∧
    ((1 : Nibble).toNat = 0 ∨ sprite.I.toNat + (1 : Nibble).toNat - 1 ≤ 0x0FFF) ∧ exec (.drw 0 1 1) sprite = .next t ∧
    t.readV vf = 0 ∧ ∃ u v, pixelAt t.fb u v ≠ pixelAt sprite.fb u v :=
  ⟨_, by decide, by decide, by decide, rfl, by decide, 0, 0, by decide⟩

theorem witness_SkipOnKey : ((reg1 0 15).readV 0).toNat = (15 : Key).val ∧
    ((reg1 0 15).setKey 15 true).keyDown 15 = true ∧ (reg1 0 15).keyDown 15 = false := by decide

theorem witness_KeyIndexOutOfRangeFaults : 15 < ((reg1 0 16).readV 0).toNat := by decide

theorem witness_KeyWait : (0xFF0A : Word) &&& 0xF0FF = 0xF00A ∧ (∀ k, State.reset.keyDown k = false) ∧
    ∃ k, (State.reset.setKey 15 true).keyDown k = true := by decide

theorem witness_TimerTransfers : (0xFF07 : Word) &&& 0xF0FF = 0xF007 ∧ (0xF015 : Word) &&& 0xF0FF = 0xF015 ∧
    (0xFF18 : Word) &&& 0xF0FF = 0xF018 := by decide

theorem witness_SetKeyAndClearRedraw : (15 : Key) ≠ 0 := by decide

theorem witness_ResetValues : 79 < 80 ∧ 80 ≤ 80 := by decide

theorem witness_LoadCopiesProgram : State.reset.mem.wf = true ∧ State.reset.started = false ∧
    (List.replicate 3584 (0 : Byte)).length ≤ 3584 ∧ 3583 < (List.replicate 3584 (0 : Byte)).length ∧
    3584 < (List.replicate 3585 (0 : Byte)).length ∧ halted.started = true := by
  rw [List.length_replicate, List.length_replicate]
  decide

/-- Reset keeps the invariant's premises for a step and for a run. -/
theorem witness_InvariantKeptByStep : ∃ t, State.reset.Inv ∧ step State.reset = .next t :=
  ⟨_, ⟨by decide, by decide, by decide⟩, rfl⟩

/-- At the bound: pc = 0x10FE, a full stack of entries 0x0456. -/
theorem witness_InvariantAtItsBound : State.Inv { stacked 16 State.reset with pc := 0x10FE } :=
  ⟨by decide, by decide, by decide⟩

theorem witness_InvariantKeptByRuns : ∃ t, State.reset.Inv ∧
    runOps [.load [0x12, 0x00], .step, .tickTimers, .setKey 1 true, .clearRedraw, .reset] State.reset = .next t :=
  ⟨_, ⟨by decide, by decide, by decide⟩, rfl⟩

theorem witness_FaultPersistsUntilReset : ∃ t, Faulted halted ∧ halted.started = true ∧
    (∀ op ∈ [HostOp.step, .tickTimers, .setKey 1 true, .clearRedraw], op.isReset = false) ∧
    runOps [.step, .tickTimers, .setKey 1 true, .clearRedraw] halted = .next t := ⟨_, nofun, rfl, by decide, rfl⟩

theorem witness_DelayTimerCountsTicks : ∃ t, NoTimerWrite [.tickTimers, .step] idle ∧
    runOps [.tickTimers, .step] idle = .next t := by
  refine ⟨_, ⟨rfl, nofun, fun t h => ?_⟩, rfl⟩
  cases h
  refine ⟨rfl, fun _ x hx => ?_, fun _ _ => trivial⟩
  have hd : decode idle.tickTimers.fetchWord = some (.jp 0x200) := by decide
  exact Instr.noConfusion (Option.some.inj (hd.symm.trans hx.2.2))

theorem witness_StepLeavesHostElements : ∃ t, step { idle with redraw := true } = .next t ∧
    State.redraw { idle with redraw := true } = true := ⟨_, rfl, rfl⟩

theorem witness_ElementsAndTheirWriters : ∃ t, step (State.reset.withFetchWord 16 0x220A) = .next t := ⟨_, rfl⟩

theorem witness_RegistersAndTheirWriters : ∃ t, step (State.reset.withFetchWord 16 0x6A3C) = .next t := ⟨_, rfl⟩

theorem witness_RedrawIsUnobserved : ∃ t s', SameButRedraw idle t ∧ t.redraw ≠ idle.redraw ∧ step idle = .next s' :=
  ⟨{ idle with redraw := true }, _, rfl, by decide, rfl⟩

theorem witness_DeadStackEntriesAreUnobserved :
    ∃ t s', SameButDeadStack idle t ∧ t.stack ≠ idle.stack ∧ step idle = .next s' :=
  ⟨{ idle with stack := Vector.replicate 16 0x0456 }, _, ⟨rfl, by decide⟩, by decide, rfl⟩

theorem witness_CanonicalMemoryIsExtensional : ∃ m m' : Memory, m.wf = true ∧ m'.wf = true ∧ m ≠ [] ∧
    ∀ a, m.read a = m'.read a := ⟨[(0x0FFF, 1)], [(0x0FFF, 1)], by decide, by decide, by decide, fun _ => rfl⟩

end Sys2Proof.Tests
end

section
/-!
PROOFS. What an executed instruction, a step and a run can make of the state; every whole-machine rule is read off these.
-/

namespace Sys2Proof.Machine

/-- What an executed instruction can make of the state, one constructor for each form of the rules' effects (spec/40_step_cycle.md R123). It keeps what the whole-machine rules need: values and conditions that none of them speaks of are left open. -/
inductive Effect (s : State) : Instr → State → Prop
  /-- FX0A with no key pressed. -/
  | wait (x : Reg) : Effect s (.waitk x) s
  /-- A fatal condition. -/
  | fault {i : Instr} (f : Fault) : Effect s i { s with fault := some f }
  /-- 1NNN, BNNN. -/
  | jump {i : Instr} (w : Word) (hw : w.toNat ≤ 0x10FE) : Effect s i (s.jump w)
  /-- The skips. -/
  | skip {i : Instr} (c : Bool) : Effect s i (s.skipIf c)
  /-- 00EE. -/
  | ret (h : 0 < s.sp.val) : Effect s .ret (s.popPc h)
  /-- 2NNN. -/
  | call (nnn : Addr) (h : s.sp.val < 16) : Effect s (.call nnn) ((s.push (s.pc + 2) h).jump (zextAddr nnn))
  /-- A result in VX. -/
  | result {i : Instr} {x : Reg} (hx : WritesReg i x) (v : Byte) : Effect s i (s.writeV x v).advance
  /-- A result in VX and a flag in VF. -/
  | resultFlag {i : Instr} {x : Reg} (hx : WritesReg i x) (hf : WritesReg i vf) (v : Byte) (f : Bool) :
      Effect s i ((s.writeV x v).writeFlag f).advance
  /-- A result in VX that takes a free value: CXNN, FX0A. -/
  | drawn {i : Instr} {x : Reg} (hx : WritesReg i x) (v : Byte) : Effect s i (s.countDraw.writeV x v).advance
  /-- ANNN. -/
  | lda (nnn : Addr) : Effect s (.lda nnn) (s.setI (zextAddr nnn)).advance
  /-- FX29. -/
  | font (x : Reg) : Effect s (.font x) (s.setI (glyphAddress (s.readV x))).advance
  /-- FX1E. -/
  | adda (x : Reg) (w : Word) (f : Bool) : Effect s (.adda x) ((s.setI w).writeFlag f).advance
  /-- FX33, FX55, inside memory. -/
  | store {i : Instr} (hi : ∃ x, i = .bcd x ∨ i = .stm x) (bs : List Byte) (hin : s.I.toNat + bs.length ≤ 4096) :
      Effect s i (s.storeBytes params bs).advance
  /-- FX65. -/
  | ldm (x : Reg) : Effect s (.ldm x) (s.loadRegs params x).advance
  /-- 00E0. -/
  | cls : Effect s .cls (s.show blankFramebuffer).advance
  /-- DXYN. -/
  | drw (x y : Reg) (n : Nibble) (fb : Framebuffer) (f : Bool) :
      Effect s (.drw x y n) ((s.show fb).writeFlag f).advance
  /-- FX15. -/
  | stdt (x : Reg) : Effect s (.stdt x) (s.setDT (s.readV x)).advance
  /-- FX18. -/
  | stst (x : Reg) : Effect s (.stst x) (s.setST (s.readV x)).advance

theorem toNat_zextAddr_le (nnn : Addr) : (zextAddr nnn).toNat ≤ 0x0FFF := by
  have := nnn.isLt
  simp only [zextAddr, BitVec.toNat_setWidth]
  omega

/-- BNNN reaches 0xFFF + 0xFF at most (spec/10_state.md R41). -/
theorem toNat_offsetTarget_le (s : State) (nnn : Addr) : (offsetTarget s nnn).toNat ≤ 0x10FE := by
  have := toNat_zextAddr_le nnn
  have := (s.readV 0).isLt
  simp only [offsetTarget, zextByte, BitVec.toNat_add, BitVec.toNat_setWidth]
  omega

/-- A key-test skip skips or faults. -/
theorem skipOnKey_effect (i : Instr) (x : Reg) (b : Bool) (s : State) :
    ∃ t, skipOnKey params x b s = .next t ∧ Effect s i t := by
  rcases Nat.lt_or_ge (s.readV x).toNat 16 with hk | hk
  · exact ⟨_, skipOnKey_of_lt b hk, .skip _⟩
  · exact ⟨_, skipOnKey_of_ge b hk, .fault _⟩

/-- Every instruction answers a next state, by one of the effects. -/
theorem exec_effect (i : Instr) (s : State) : ∃ t, exec i s = .next t ∧ Effect s i t := by
  cases i with
  | cls => exact ⟨_, rfl, .cls⟩
  | ret =>
    rcases Nat.eq_zero_or_pos s.sp.val with hsp | hsp
    · exact ⟨_, exec_ret_fault s hsp, .fault _⟩
    · exact ⟨_, exec_ret s hsp, .ret hsp⟩
  | jp nnn => exact ⟨_, rfl, .jump _ (Nat.le_trans (toNat_zextAddr_le nnn) (by decide))⟩
  | jpv0 nnn => exact ⟨_, rfl, .jump _ (toNat_offsetTarget_le s nnn)⟩
  | call nnn =>
    rcases Nat.lt_or_ge s.sp.val 16 with hsp | hsp
    · exact ⟨_, exec_call nnn s hsp, .call nnn hsp⟩
    · exact ⟨_, exec_call_fault nnn s (by omega), .fault _⟩
  | sei | snei | se | sne => exact ⟨_, rfl, .skip _⟩
  | skp x => exact skipOnKey_effect _ x true s
  | sknp x => exact skipOnKey_effect _ x false s
  | ldi | addi | mov | or | and | xor | lddt => exact ⟨_, rfl, .result (by exact rfl) _⟩
  | add | sub | shr | subn | shl =>
    exact ⟨_, rfl, .resultFlag (by exact Or.inl rfl) (by exact Or.inr rfl) _ _⟩
  | rnd => exact ⟨_, rfl, .drawn (by exact rfl) _⟩
  | waitk x =>
    by_cases hk : ∃ k, s.keyDown k = true
    · obtain ⟨k, -, he⟩ := exec_waitk_some x s hk
      exact ⟨_, he, .drawn (by exact rfl) _⟩
    · exact ⟨_, exec_waitk_none x s (by simpa using hk), .wait x⟩
  | lda nnn => exact ⟨_, rfl, .lda nnn⟩
  | font x => exact ⟨_, rfl, .font x⟩
  | adda x => exact ⟨_, rfl, .adda x _ _⟩
  | drw x y n =>
    by_cases hb : n.toNat = 0 ∨ s.I.toNat + n.toNat - 1 ≤ 0x0FFF
    · exact ⟨_, exec_drw x y n s hb, .drw x y n _ _⟩
    · exact ⟨_, exec_drw_fault x y n s (by omega) (by omega), .fault _⟩
  | bcd x =>
    rcases Nat.lt_or_ge 0x0FFF (s.I.toNat + 2) with hb | hb
    · exact ⟨_, exec_bcd_fault x s hb, .fault _⟩
    · exact ⟨_, exec_bcd x s hb, .store ⟨x, .inl rfl⟩ _ (by rw [length_decimalDigits]; omega)⟩
  | stm x =>
    rcases Nat.lt_or_ge 0x0FFF (s.I.toNat + x.val) with hb | hb
    · exact ⟨_, exec_stm_fault x s hb, .fault _⟩
    · exact ⟨_, exec_stm x s hb, .store ⟨x, .inr rfl⟩ _ (by rw [length_blockOfRegs]; omega)⟩
  | ldm x =>
    rcases Nat.lt_or_ge 0x0FFF (s.I.toNat + x.val) with hb | hb
    · exact ⟨_, exec_ldm_fault x s hb, .fault _⟩
    · exact ⟨_, exec_ldm x s hb, .ldm x⟩
  | stdt x => exact ⟨_, rfl, .stdt x⟩
  | stst x => exact ⟨_, rfl, .stst x⟩

/-- What a step leaves, with the condition of each case (spec/40_step_cycle.md R120). -/
theorem step_next_cases {s t : State} (h : step s = .next t) :
    (s.fault ≠ none ∧ t = s) ∨
    (s.fault = none ∧ 0x0FFF < s.pc.toNat + 1 ∧ t = { s.markStarted with fault := some (.fetchOutOfRange s.pc) }) ∨
    (s.fault = none ∧ s.pc.toNat + 1 ≤ 0x0FFF ∧ decode s.fetchWord = none ∧ t = s.markStarted.advance) ∨
    ∃ i, Executes s i ∧ Effect s.markStarted i t := by
  rcases step_cases s with ⟨hf, e⟩ | ⟨hf, hb, e⟩ | ⟨hf, hb, hd, e⟩ | ⟨i, hf, hb, hd, e⟩
  · exact .inl ⟨hf, Host.Outcome.next.inj (h.symm.trans e)⟩
  · exact .inr (.inl ⟨hf, hb, Host.Outcome.next.inj (h.symm.trans e)⟩)
  · exact .inr (.inr (.inl ⟨hf, hb, hd, Host.Outcome.next.inj (h.symm.trans e)⟩))
  · obtain ⟨u, hu, he⟩ := exec_effect i s.markStarted
    cases h.symm.trans (e.trans hu)
    exact .inr (.inr (.inr ⟨i, ⟨hf, hb, hd⟩, he⟩))

/-- A step executes an instruction, or it writes at most pc, `fault` and `started`. -/
theorem step_executes_or_quiet {s t : State} (h : step s = .next t) :
    (∃ i, Executes s i ∧ Effect s.markStarted i t) ∨
    ∃ pc f b, t = { s with pc := pc, fault := f, started := b } := by
  rcases step_next_cases h with ⟨-, rfl⟩ | ⟨-, -, rfl⟩ | ⟨-, -, -, rfl⟩ | he
  · exact .inr ⟨_, _, _, rfl⟩
  · exact .inr ⟨_, _, _, rfl⟩
  · exact .inr ⟨_, _, _, rfl⟩
  · exact .inl he

/-- A `load` that answers a state comes before the first step. -/
theorem loadOp_next {bytes : List Byte} {s t : State} (h : loadOp bytes s = .next t) :
    s.started = false ∧ t = s.loadProgram bytes := by
  unfold loadOp at h
  split at h
  · cases h
  · cases h
    exact ⟨by simpa using ‹¬ s.started = true›, rfl⟩

/-- What each operation of a run keeps, the run keeps. -/
theorem runOps_preserves {P : State → Prop} {ops : List HostOp}
    (hop : ∀ op ∈ ops, ∀ s t, P s → operate op s = .next t → P t) {s t : State} (hs : P s)
    (h : runOps ops s = .next t) : P t := by
  induction ops generalizing s with
  | nil =>
    cases h
    exact hs
  | cons op ops ih =>
    simp only [runOps] at h
    cases ho : operate op s with
    | next u =>
      rw [ho] at h
      exact ih (fun o hm => hop o (.tail op hm)) (hop op (.head ops) s u hs ho) h
    | fault f => rw [ho] at h; cases h
    | refused r => rw [ho] at h; cases h

end Sys2Proof.Machine
end

section
/-!
PROOFS. The state invariant (spec/10_state.md R41): every effect, step and run keeps it.
-/

namespace Sys2Proof.Machine

/-- The invariant after an update that leaves the stack. -/
theorem State.Inv.of_stack_eq {s t : State} (hs : s.Inv) (hm : t.mem.wf = true) (hp : t.pc.toNat ≤ 0x10FE)
    (hst : t.stack = s.stack) (hsp : t.sp = s.sp) : t.Inv := by
  obtain ⟨-, -, hlive⟩ := hs
  refine ⟨hm, hp, ?_⟩
  rw [hst, hsp]
  exact hlive

theorem State.Inv.mem_wf {s : State} (hs : s.Inv) : s.mem.wf = true := hs.1

theorem State.Inv.pc_le {s : State} (hs : s.Inv) : s.pc.toNat ≤ 0x10FE := hs.2.1

theorem State.Inv.popPc {s : State} (hs : s.Inv) (h : 0 < s.sp.val) : (s.popPc h).Inv := by
  obtain ⟨hm, -, hlive⟩ := hs
  have htop := hlive ⟨s.sp.val - 1, by omega⟩ (Nat.sub_lt h Nat.one_pos)
  refine ⟨hm, ?_, fun k hk => hlive k ?_⟩
  · rw [State.popPc_pc]
    exact Nat.le_trans htop.2 (by decide)
  · rw [State.popPc_sp_val] at hk
    omega

theorem State.Inv.push {s : State} (hs : s.Inv) {v : Word} (hv : 2 ≤ v.toNat ∧ v.toNat ≤ 0x1000) (h : s.sp.val < 16) :
    (s.push v h).Inv := by
  obtain ⟨hm, hp, hlive⟩ := hs
  refine ⟨hm, hp, fun k hk => ?_⟩
  simp only [State.push_sp_val] at hk
  simp only [State.push_stack, Vector.getElem_set]
  split
  · exact hv
  · exact hlive k (by omega)

/-- An executed instruction keeps the invariant. -/
theorem Effect.inv {i : Instr} {s t : State} (h : Effect s i t) (hpc : s.pc.toNat + 1 ≤ 0x0FFF) (hs : s.Inv) : t.Inv := by
  have hnext : (s.pc + 2).toNat = s.pc.toNat + 2 := toNat_add_of_le (by omega) (by decide)
  have hskip : (s.pc + 4).toNat = s.pc.toNat + 4 := toNat_add_of_le (by omega) (by decide)
  have hadv : (s.pc + 2).toNat ≤ 0x10FE := by omega
  cases h with
  | wait => exact hs
  | fault f => exact hs
  | jump w hw => exact hs.of_stack_eq hs.mem_wf hw rfl rfl
  | skip c =>
    refine hs.of_stack_eq (by simpa using hs.mem_wf) ?_ (by simp) (by simp)
    cases c
    · exact hadv
    · exact hskip.trans_le (by omega)
  | ret hsp => exact hs.popPc hsp
  | call nnn hsp =>
    exact (hs.push (by omega) hsp).of_stack_eq hs.mem_wf (Nat.le_trans (toNat_zextAddr_le nnn) (by decide)) rfl rfl
  | store hi bs hin => exact hs.of_stack_eq (wf_storeBytes s bs hs.mem_wf (.inr hin)) hadv rfl rfl
  | _ => exact hs.of_stack_eq (by simpa using hs.mem_wf) (by simpa using hadv) (by simp) (by simp)

theorem step_inv {s t : State} (hs : s.Inv) (h : step s = .next t) : t.Inv := by
  rcases step_next_cases h with ⟨-, rfl⟩ | ⟨-, -, rfl⟩ | ⟨-, hpc, -, rfl⟩ | ⟨i, ⟨-, hpc, -⟩, he⟩
  · exact hs
  · exact hs
  · refine hs.of_stack_eq hs.mem_wf ?_ rfl rfl
    have hnext : (s.pc + 2).toNat = s.pc.toNat + 2 := toNat_add_of_le (by omega) (by decide)
    exact hnext.trans_le (by omega)
  · exact he.inv hpc hs

theorem inv_resetOp (s : State) : s.resetOp.Inv :=
  ⟨rfl, by simp [State.reset], fun _ hk => absurd hk (Nat.not_lt_zero _)⟩

theorem inv_loadProgram {s : State} (hs : s.Inv) (bytes : List Byte) : (s.loadProgram bytes).Inv := by
  rcases loadProgram_cases s bytes with ⟨-, e⟩ | ⟨hl, e⟩ <;> rw [e]
  · exact hs
  · exact hs.of_stack_eq (Memory.wf_copy hs.mem_wf bytes (by omega)) hs.pc_le rfl rfl

theorem operate_inv {op : HostOp} {s t : State} (hs : s.Inv) (h : operate op s = .next t) : t.Inv := by
  cases op with
  | reset => cases h; exact inv_resetOp s
  | load bytes =>
    obtain ⟨-, rfl⟩ := loadOp_next h
    exact inv_loadProgram hs bytes
  | step => exact step_inv hs h
  | tickTimers => cases h; exact hs
  | setKey k b => cases h; exact hs
  | clearRedraw => cases h; exact hs

/-- Settles O50: the base case, true after `reset` from any state. -/
theorem invariantAtReset : Obligations.InvariantAtReset := inv_resetOp State.reset

/-- Settles O51: every effect of an instruction keeps the invariant, and so does a step that executes none. -/
theorem invariantKeptByStep : Obligations.InvariantKeptByStep := fun _ _ => step_inv

/-- Settles O52, by induction over the run. -/
theorem invariantKeptByRuns : Obligations.InvariantKeptByRuns := fun _ _ _ hs h =>
  runOps_preserves (P := State.Inv) (fun _ _ _ _ => operate_inv) hs h

end Sys2Proof.Machine
end

section
/-!
PROOFS. The halted machine (spec/60_exceptions.md R242): what stays until `reset`.
-/

namespace Sys2Proof.Machine

theorem SameElem.refl (s : State) (e : Elem) : SameElem s s e := by
  cases e with
  | mem | V | stack | key => exact fun _ => rfl
  | fb => exact fun _ _ => rfl
  | I | pc | sp | DT | ST | redraw | fault | tone | started | draws => exact Eq.refl _

theorem SameElem.trans {s t u : State} {e : Elem} (h : SameElem s t e) (h' : SameElem t u e) : SameElem s u e := by
  cases e with
  | mem | V | stack | key => exact fun a => (h' a).trans (h a)
  | fb => exact fun x y => (h' x y).trans (h x y)
  | I | pc | sp | DT | ST | redraw | fault | tone | started | draws => exact Eq.trans h' h

theorem Frame.trans {l : List Elem} {s t u : State} (h : Frame l s t) (h' : Frame l t u) : Frame l s u :=
  fun e he => (h e he).trans (h' e he)

/-- What the operations other than `reset` leave as it is in a halted machine. -/
def HaltedFrame (s t : State) : Prop :=
  Frame [.mem, .DT, .ST, .key, .redraw, .tone] s t ∧ (s.started = true → SameElem s t .mem)

theorem HaltedFrame.refl (s : State) : HaltedFrame s s :=
  ⟨fun e _ => .refl s e, fun _ => .refl s .mem⟩

theorem HaltedFrame.trans {s t u : State} (h : HaltedFrame s t) (h' : HaltedFrame t u) : HaltedFrame s u := by
  obtain ⟨hf, hm⟩ := h
  obtain ⟨hf', hm'⟩ := h'
  have hstarted : t.started = s.started := hf .started (by decide)
  exact ⟨hf.trans hf', fun hs => (hm hs).trans (hm' (hstarted.trans hs))⟩

theorem HaltedFrame.fault_eq {s t : State} (h : HaltedFrame s t) : t.fault = s.fault := h.1 .fault (by decide)

/-- An update of the elements that the operations still write. -/
theorem frame_of_update (s : State) (mem : Memory) (DT ST : Byte) (key : Vector Bool 16) (redraw tone : Bool) :
    Frame [.mem, .DT, .ST, .key, .redraw, .tone] s
      { s with mem := mem, DT := DT, ST := ST, key := key, redraw := redraw, tone := tone } := by
  intro e he
  cases e with
  | mem | DT | ST | key | redraw | tone => exact absurd he (by decide)
  | V | stack => exact fun _ => rfl
  | fb => exact fun _ _ => rfl
  | I | pc | sp | fault | started | draws => exact Eq.refl _

theorem haltedFrame_loadProgram {s : State} (h : s.started = false) (bytes : List Byte) :
    HaltedFrame s (s.loadProgram bytes) := by
  rcases loadProgram_cases s bytes with ⟨-, e⟩ | ⟨-, e⟩ <;> rw [e]
  · exact .refl s
  · exact ⟨frame_of_update s _ _ _ _ _ _, fun hs => absurd (h.symm.trans hs) (by decide)⟩

/-- On a halted machine every operation but `reset` keeps that frame. -/
theorem operate_halted {op : HostOp} {s t : State} (hop : op.isReset = false) (hf : Faulted s)
    (h : operate op s = .next t) : HaltedFrame s t := by
  cases op with
  | reset => cases hop
  | load bytes =>
    obtain ⟨hs, rfl⟩ := loadOp_next h
    exact haltedFrame_loadProgram hs bytes
  | step =>
    rcases step_next_cases h with ⟨-, rfl⟩ | ⟨hn, -⟩ | ⟨hn, -⟩ | ⟨-, ⟨hn, -⟩, -⟩
    · exact .refl t
    all_goals exact absurd hn hf
  | tickTimers => cases h; exact ⟨frame_of_update s _ _ _ _ _ _, fun _ _ => rfl⟩
  | setKey k b => cases h; exact ⟨frame_of_update s _ _ _ _ _ _, fun _ _ => rfl⟩
  | clearRedraw => cases h; exact ⟨frame_of_update s _ _ _ _ _ _, fun _ _ => rfl⟩

/-- Settles O53, by induction over the run: each operation keeps `HaltedFrame` from the first state. -/
theorem faultPersistsUntilReset : Obligations.FaultPersistsUntilReset := by
  intro ops s t hf hops h
  have hst : HaltedFrame s t :=
    runOps_preserves (P := HaltedFrame s)
      (fun op hm u v hu hv => hu.trans (operate_halted (hops op hm) (fun e => hf (hu.fault_eq.symm.trans e)) hv))
      (.refl s) h
  exact ⟨hst.fault_eq, hst⟩

end Sys2Proof.Machine
end

section
/-!
PROOFS. Which instruction writes which element (spec/10_state.md R21 to R33).
-/

namespace Sys2Proof.Machine

section Writers

variable {s t : State} {i : Instr}

theorem Effect.key_eq (h : Effect s i t) : t.key = s.key := by
  cases h with
  | _ => simp

theorem Effect.tone_eq (h : Effect s i t) : t.tone = s.tone := by
  cases h with
  | _ => simp

/-- An effect leaves the display alone, or it is a display instruction's. -/
theorem Effect.display (h : Effect s i t) :
    (t.fb = s.fb ∧ t.redraw = s.redraw) ∨ (i = .cls ∨ ∃ x y n, i = .drw x y n) ∧ t.redraw = true := by
  cases h with
  | cls => exact .inr ⟨.inl rfl, rfl⟩
  | drw x y n => exact .inr ⟨.inr ⟨x, y, n, rfl⟩, rfl⟩
  | _ => exact .inl (by simp)

theorem Effect.DT_eq_or (h : Effect s i t) : t.DT = s.DT ∨ ∃ x, i = .stdt x := by
  cases h with
  | stdt x => exact .inr ⟨x, rfl⟩
  | _ => exact .inl (by simp)

theorem Effect.ST_eq_or (h : Effect s i t) : t.ST = s.ST ∨ ∃ x, i = .stst x := by
  cases h with
  | stst x => exact .inr ⟨x, rfl⟩
  | _ => exact .inl (by simp)

theorem Effect.mem_eq_or (h : Effect s i t) : t.mem = s.mem ∨ ∃ x, i = .bcd x ∨ i = .stm x := by
  cases h with
  | store hi => exact .inr hi
  | _ => exact .inl (by simp)

theorem Effect.I_eq_or (h : Effect s i t) :
    t.I = s.I ∨ (∃ nnn, i = .lda nnn) ∨ ∃ x, i = .adda x ∨ i = .font x := by
  cases h with
  | lda nnn => exact .inr (.inl ⟨nnn, rfl⟩)
  | adda x => exact .inr (.inr ⟨x, .inl rfl⟩)
  | font x => exact .inr (.inr ⟨x, .inr rfl⟩)
  | _ => exact .inl (by simp)

theorem Effect.stack_eq_or (h : Effect s i t) : t.stack = s.stack ∨ ∃ nnn, i = .call nnn := by
  cases h with
  | call nnn => exact .inr ⟨nnn, rfl⟩
  | _ => exact .inl (by simp)

theorem Effect.sp_eq_or (h : Effect s i t) : t.sp = s.sp ∨ i = .ret ∨ ∃ nnn, i = .call nnn := by
  cases h with
  | ret => exact .inr (.inl rfl)
  | call nnn => exact .inr (.inr ⟨nnn, rfl⟩)
  | _ => exact .inl (by simp)

theorem Effect.readV_eq_or (h : Effect s i t) (r : Reg) : t.readV r = s.readV r ∨ WritesReg i r := by
  cases h with
  | wait | fault | jump | ret | call => exact .inl rfl
  | skip | lda | font | store | cls | stdt | stst => exact .inl (by simp)
  | @result _ x hx v | @drawn _ x hx v =>
    by_cases hr : r = x
    · exact .inr (hr ▸ hx)
    · exact .inl (by simp [hr])
  | @resultFlag _ x hx hf v f =>
    by_cases hv : r = vf
    · exact .inr (hv ▸ hf)
    · by_cases hr : r = x
      · exact .inr (hr ▸ hx)
      · exact .inl (by simp [hr, hv])
  | adda | drw =>
    by_cases hv : r = vf
    · exact .inr hv
    · exact .inl (by simp [hv])
  | ldm x =>
    by_cases hr : r ≤ x
    · exact .inr hr
    · exact .inl (by simp [State.readV_loadRegs, hr])

end Writers

/-- Settles O55: each effect and each other step, element by element. -/
theorem stepLeavesHostElements : Obligations.StepLeavesHostElements := by
  intro s t h
  rcases step_executes_or_quiet h with ⟨i, hx, he⟩ | ⟨pc, f, b, rfl⟩
  · refine ⟨State.keyDown_congr _ _ he.key_eq, he.tone_eq, fun hr => ?_, ?_, ?_⟩
    · rcases he.display with ⟨-, e⟩ | ⟨-, e⟩
      · exact e.trans hr
      · exact e
    · exact he.DT_eq_or.imp_right fun ⟨x, e⟩ => ⟨x, e ▸ hx⟩
    · exact he.ST_eq_or.imp_right fun ⟨x, e⟩ => ⟨x, e ▸ hx⟩
  · exact ⟨fun _ => rfl, rfl, id, .inl rfl, .inl rfl⟩

/-- Settles O56: each effect and each other step, element by element. -/
theorem elementsAndTheirWriters : Obligations.ElementsAndTheirWriters := by
  intro s t h
  rcases step_executes_or_quiet h with ⟨i, hx, he⟩ | ⟨pc, f, b, rfl⟩
  · refine ⟨?_, ?_, ?_, ?_, ?_⟩
    · rcases he.display with ⟨e, e'⟩ | ⟨rfl | ⟨x, y, n, rfl⟩, -⟩
      · exact .inl ⟨fun x y => by rw [e, State.markStarted_fb], e'⟩
      · exact .inr (.inl hx)
      · exact .inr (.inr ⟨x, y, n, hx⟩)
    · rcases he.mem_eq_or with e | ⟨x, rfl | rfl⟩
      · exact .inl fun a => by rw [e, State.markStarted_mem]
      · exact .inr ⟨x, .inl hx⟩
      · exact .inr ⟨x, .inr hx⟩
    · rcases he.I_eq_or with e | ⟨nnn, rfl⟩ | ⟨x, rfl | rfl⟩
      · exact .inl e
      · exact .inr (.inl ⟨nnn, hx⟩)
      · exact .inr (.inr ⟨x, .inl hx⟩)
      · exact .inr (.inr ⟨x, .inr hx⟩)
    · rcases he.stack_eq_or with e | ⟨nnn, rfl⟩
      · exact .inl fun k => by simp only [e, State.markStarted_stack]
      · exact .inr ⟨nnn, hx⟩
    · rcases he.sp_eq_or with e | rfl | ⟨nnn, rfl⟩
      · exact .inl e
      · exact .inr (.inl hx)
      · exact .inr (.inr ⟨nnn, hx⟩)
  · exact ⟨.inl ⟨fun _ _ => rfl, rfl⟩, .inl fun _ => rfl, .inl rfl, .inl fun _ => rfl, .inl rfl⟩

/-- Settles O57: each effect writes registers by `WritesReg`, and every other step none. -/
theorem registersAndTheirWriters : Obligations.RegistersAndTheirWriters := by
  intro s t r h
  rcases step_executes_or_quiet h with ⟨i, hx, he⟩ | ⟨pc, f, b, rfl⟩
  · exact (he.readV_eq_or r).imp_right fun hw => ⟨i, hx, hw⟩
  · exact .inl rfl

end Sys2Proof.Machine
end

section
/-!
PROOFS. The values after `reset` (spec/10_state.md R40).
-/

namespace Sys2Proof.Machine

/-- Settles O48: the reset contents of memory are FONT and zeros, and `resetOp` is `State.reset` but for `draws`. -/
theorem resetValues : Obligations.ResetValues := fun s =>
  ⟨s.resetOp, rfl, fun _ ha => dif_pos ha, fun _ ha => dif_neg (Nat.not_lt.2 ha),
    fun _ => Vector.getElem_replicate _, rfl, rfl, fun _ => Vector.getElem_replicate _, rfl, rfl, rfl,
    fun u v => by simp [pixelAt, State.reset, blankFramebuffer], fun _ => Vector.getElem_replicate _,
    rfl, rfl, rfl, rfl, rfl, rfl⟩

end Sys2Proof.Machine
end

section
/-!
PROOFS. What the core does not read (spec/10_state.md R25, R30): a simulation between states that agree but for `redraw` or the dead stack entries.
-/

namespace Sys2Proof.Machine

/-- The state with `redraw` and the stack replaced. -/
def State.withUnread (s : State) (b : Bool) (st : Vector Word 16) : State := { s with redraw := b, stack := st }

/-- The states agree but for `redraw`, unless `p`, and for the dead stack entries, unless `q`. -/
structure Agree (p q : Prop) (s t : State) : Prop where
  rest : t = s.withUnread t.redraw t.stack
  redraw : p → t.redraw = s.redraw
  stack : ∀ k : Fin 16, q ∨ k.val < s.sp.val → t.stack[k.val] = s.stack[k.val]

/-- Both outcomes are next states, and these agree. -/
def AgreeNext (p q : Prop) (o o' : Out) : Prop := ∃ s t, o = .next s ∧ o' = .next t ∧ Agree p q s t

theorem agree_iff_sameButRedraw {s t : State} : Agree False True s t ↔ SameButRedraw s t := by
  constructor
  · rintro ⟨rest, -, hst⟩
    have hstack : t.stack = s.stack := Vector.ext fun k hk => hst ⟨k, hk⟩ (.inl trivial)
    rw [hstack] at rest
    exact rest
  · intro h
    have hst : t.stack = s.stack := by rw [show t = _ from h]
    exact ⟨by rw [hst]; exact h, False.elim, fun k _ => by simp only [hst]⟩

theorem agree_iff_sameButDeadStack {s t : State} : Agree True False s t ↔ SameButDeadStack s t := by
  constructor
  · rintro ⟨rest, hr, hst⟩
    rw [hr trivial] at rest
    exact ⟨rest, fun k hk => hst k (.inr hk)⟩
  · rintro ⟨h, hst⟩
    have hr : t.redraw = s.redraw := by rw [h]
    exact ⟨by rw [hr]; exact h, fun _ => hr, fun k hk => hst k (hk.resolve_left id)⟩

section Agree

variable {p q : Prop} {s t : State}

theorem Agree.eq_withUnread (h : Agree p q s t) : ∃ b st, t = s.withUnread b st := ⟨_, _, h.rest⟩

/-- Updates of the other elements keep the agreement. -/
theorem Agree.of_eq (h : Agree p q s t) {s' t' : State} (rest : t' = s'.withUnread t.redraw t.stack)
    (hr : s'.redraw = s.redraw) (hst : s'.stack = s.stack) (hsp : s'.sp = s.sp) : Agree p q s' t' := by
  subst rest
  refine ⟨rfl, fun hp => (h.redraw hp).trans hr.symm, ?_⟩
  rw [hst, hsp]
  exact h.stack

theorem Agree.setI (h : Agree p q s t) (v : Word) : Agree p q (s.setI v) (t.setI v) :=
  h.of_eq (by rw [h.rest]; rfl) rfl rfl rfl

theorem Agree.advance (h : Agree p q s t) : Agree p q s.advance t.advance :=
  h.of_eq (by rw [h.rest]; rfl) rfl rfl rfl

theorem Agree.markStarted (h : Agree p q s t) : Agree p q s.markStarted t.markStarted :=
  h.of_eq (by rw [h.rest]; rfl) rfl rfl rfl

theorem Agree.skipIf (h : Agree p q s t) (c : Bool) : Agree p q (s.skipIf c) (t.skipIf c) := by
  cases c
  · exact h.of_eq (by rw [h.rest]; rfl) rfl rfl rfl
  · exact h.of_eq (by rw [h.rest]; rfl) rfl rfl rfl

/-- A return reads the topmost live entry. -/
theorem Agree.popPc (h : Agree p q s t) (hs : 0 < s.sp.val) (ht : 0 < t.sp.val) :
    Agree p q (s.popPc hs) (t.popPc ht) := by
  obtain ⟨b, st, rfl⟩ := h.eq_withUnread
  have htop : st[s.sp.val - 1] = s.stack[s.sp.val - 1] :=
    h.stack ⟨s.sp.val - 1, by omega⟩ (.inr (Nat.sub_lt hs Nat.one_pos))
  refine ⟨?_, h.redraw, fun k hk => h.stack k (hk.imp_right fun hlt => ?_)⟩
  · exact congrArg (fun w => ((s.popPc hs).withUnread b st).jump w) htop
  · rw [State.popPc_sp_val] at hlt
    omega

/-- A call overwrites the first dead entry. -/
theorem Agree.push (h : Agree p q s t) (v : Word) (hs : s.sp.val < 16) (ht : t.sp.val < 16) :
    Agree p q (s.push v hs) (t.push v ht) := by
  obtain ⟨b, st, rfl⟩ := h.eq_withUnread
  refine ⟨rfl, h.redraw, fun k hk => ?_⟩
  show (st.set s.sp.val v hs)[k.val] = (s.stack.set s.sp.val v hs)[k.val]
  rw [Vector.getElem_set, Vector.getElem_set]
  split
  · rfl
  · refine h.stack k (hk.imp_right fun hlt => ?_)
    rw [State.push_sp_val] at hlt
    omega

theorem Agree.raiseFault (h : Agree p q s t) (f : Fault) : AgreeNext p q (raiseFault f s) (raiseFault f t) :=
  ⟨_, _, rfl, rfl, h.of_eq (by rw [h.rest]; rfl) rfl rfl rfl⟩

/-- The data bound check reads neither. -/
theorem Agree.checked (h : Agree p q s t) (n : Nat) {s' t' : State} (h' : Agree p q s' t') :
    AgreeNext p q (if dataOutOfBounds params s n then raiseDataOutOfRange s else .next s')
      (if dataOutOfBounds params t n then raiseDataOutOfRange t else .next t') := by
  have hc : dataOutOfBounds params t n = dataOutOfBounds params s n := by rw [h.rest]; rfl
  rw [hc]
  split
  · obtain ⟨b, st, rfl⟩ := h.eq_withUnread
    exact h.raiseFault (.dataOutOfRange s.I s.pc)
  · exact ⟨_, _, rfl, rfl, h'⟩

theorem skipOnKey_agree (h : Agree p q s t) (x : Reg) (pressed : Bool) :
    AgreeNext p q (skipOnKey params x pressed s) (skipOnKey params x pressed t) := by
  obtain ⟨b, st, rfl⟩ := h.eq_withUnread
  rcases Nat.lt_or_ge (s.readV x).toNat 16 with hk | hk
  · exact ⟨_, _, skipOnKey_of_lt pressed hk, skipOnKey_of_lt (s := s.withUnread b st) pressed hk, h.skipIf _⟩
  · rw [skipOnKey_of_ge pressed hk, skipOnKey_of_ge (s := s.withUnread b st) pressed hk]
    exact h.raiseFault (.keyIndexOutOfRange (s.readV x) s.pc)

theorem loadRegs_withUnread (s : State) (b : Bool) (st : Vector Word 16) (x : Reg) :
    (s.withUnread b st).loadRegs params x = (s.loadRegs params x).withUnread b st := rfl

theorem exec_waitk_of_pick {s : State} {k : Key} (x : Reg) (h : pickKey params s.draws (pressedKeys s) = some k) :
    exec (.waitk x) s = .next (s.countDraw.writeV x (keyByte k)).advance := by
  simp only [exec, execWaitk, execWaitkWith, h]

theorem exec_waitk_of_pick_none {s : State} (x : Reg) (h : pickKey params s.draws (pressedKeys s) = none) :
    exec (.waitk x) s = .next s := by
  simp only [exec, execWaitk, execWaitkWith, h]

/-- Agreeing states execute an instruction to agreeing states. -/
theorem exec_agree (i : Instr) (h : Agree p q s t) : AgreeNext p q (exec i s) (exec i t) := by
  obtain ⟨b, st, rfl⟩ := h.eq_withUnread
  cases i with
  | cls => exact ⟨_, _, rfl, rfl, rfl, fun _ => rfl, h.stack⟩
  | ret =>
    rcases Nat.eq_zero_or_pos s.sp.val with hsp | hsp
    · rw [exec_ret_fault s hsp, exec_ret_fault (s.withUnread b st) hsp]
      exact h.raiseFault _
    · exact ⟨_, _, exec_ret s hsp, exec_ret (s.withUnread b st) hsp, h.popPc hsp hsp⟩
  | call nnn =>
    rcases Nat.lt_or_ge s.sp.val 16 with hsp | hsp
    · exact ⟨_, _, exec_call nnn s hsp, exec_call nnn (s.withUnread b st) hsp,
        (h.push _ hsp hsp).of_eq rfl rfl rfl rfl⟩
    · have hfull : s.sp.val = 16 := by omega
      rw [exec_call_fault nnn s hfull, exec_call_fault nnn (s.withUnread b st) hfull]
      exact h.raiseFault _
  | sei | snei | se | sne => exact ⟨_, _, rfl, rfl, h.skipIf _⟩
  | skp x => exact skipOnKey_agree h x true
  | sknp x => exact skipOnKey_agree h x false
  | jp | jpv0 | ldi | addi | mov | or | and | xor | add | sub | shr | subn | shl | lda | rnd | lddt | stdt | stst | adda
  | font => exact ⟨_, _, rfl, rfl, h.of_eq rfl rfl rfl rfl⟩
  | drw x y n => exact h.checked _ ⟨rfl, fun _ => rfl, h.stack⟩
  | bcd x => exact h.checked _ (h.of_eq rfl rfl rfl rfl)
  | stm x => exact h.checked _ (h.of_eq rfl rfl rfl rfl)
  | ldm x =>
    have hl : Agree p q (s.loadRegs params x) ((s.withUnread b st).loadRegs params x) :=
      h.of_eq (loadRegs_withUnread s b st x) (by simp) (by simp) (by simp)
    exact h.checked _ (hl.setI s.I).advance
  | waitk x =>
    cases hk : pickKey params s.draws (pressedKeys s) with
    | none => exact ⟨_, _, exec_waitk_of_pick_none x hk, exec_waitk_of_pick_none (s := s.withUnread b st) x hk, h⟩
    | some k =>
      exact ⟨_, _, exec_waitk_of_pick x hk, exec_waitk_of_pick (s := s.withUnread b st) x hk, h.of_eq rfl rfl rfl rfl⟩

/-- Agreeing states find the same before they execute. -/
theorem Agree.fetchDecode_eq (h : Agree p q s t) : fetchDecode t = fetchDecode s := by
  rw [h.rest]
  rfl

theorem Agree.stepDiag_eq (h : Agree p q s t) : stepDiag t = stepDiag s := by
  rw [h.rest]
  rfl

/-- Agreeing states step to agreeing states. -/
theorem step_agree (h : Agree p q s t) : AgreeNext p q (step s) (step t) := by
  unfold step
  rw [h.fetchDecode_eq]
  cases fetchDecode s with
  | halted => exact ⟨s, t, rfl, rfl, h⟩
  | outOfRange =>
    obtain ⟨b, st, rfl⟩ := h.eq_withUnread
    exact h.markStarted.raiseFault (.fetchOutOfRange s.pc)
  | unrecognised op => exact ⟨_, _, rfl, rfl, h.markStarted.advance⟩
  | instr i => exact exec_agree i h.markStarted

/-- The simulation in the form of the statements. -/
theorem Agree.step_next (h : Agree p q s t) {s' : State} (hs : step s = .next s') :
    ∃ t', step t = .next t' ∧ Agree p q s' t' := by
  obtain ⟨u, t', hu, ht, ha⟩ := step_agree h
  cases hs.symm.trans hu
  exact ⟨t', ht, ha⟩

end Agree

/-- Settles O58: states that agree but for `redraw` step to such states. -/
theorem redrawIsUnobserved : Obligations.RedrawIsUnobserved := by
  intro s t s' h hs
  have ha := agree_iff_sameButRedraw.2 h
  obtain ⟨t', ht, ha'⟩ := ha.step_next hs
  exact ⟨ha.stepDiag_eq, t', ht, agree_iff_sameButRedraw.1 ha'⟩

/-- Settles O59: states that agree but for dead stack entries step to such states. -/
theorem deadStackEntriesAreUnobserved : Obligations.DeadStackEntriesAreUnobserved := by
  intro s t s' h hs
  have ha := agree_iff_sameButDeadStack.2 h
  obtain ⟨t', ht, ha'⟩ := ha.step_next hs
  exact ⟨ha.stepDiag_eq, t', ht, agree_iff_sameButDeadStack.1 ha'⟩

end Sys2Proof.Machine
end

section
/-!
PROOFS. Encoding and the bytes of a word (spec/30_encoding.md R94, R101; spec/20_memory.md R63): the decoder inverts the encoder, and a fetched word is its two bytes.
-/

namespace Sys2Proof

/-- The decoder reads back every operand: the digits of registers and immediates keep them (spec/30_encoding.md R94). -/
theorem decodeDigits_encodeDigits (i : Instr) : decodeDigits (encodeDigits i) = some i := by
  cases i with
  | jp nnn | call nnn | lda nnn | jpv0 nnn => exact congrArg (some ∘ _) (addrOf_digits nnn)
  | sei x nn | snei x nn | ldi x nn | addi x nn | rnd x nn => exact congrArg (some ∘ _) (immOf_digits nn)
  | cls | ret => rfl
  | se | sne | mov | or | and | xor | add | sub | shr | subn | shl | drw => rfl
  | skp | sknp | lddt | stdt | stst | waitk | adda | font | bcd | stm | ldm => rfl

theorem decode_encode (i : Instr) : decode (encode i) = some i := by
  rw [decode, encode, digitsOf_wordOf, decodeDigits_encodeDigits]

/-- Settles O1: the two bytes join to the instruction's word, and that word decodes to the instruction. -/
theorem decodeInvertsEncode : Obligations.DecodeInvertsEncode := by
  intro i rest
  simp only [encodeBytes, List.cons_append, List.nil_append, decodeBytes_pair, wordOfBytes_bytes, decode_encode]

/-- The high byte counts 256 times. -/
theorem toNat_wordOfBytes (b0 b1 : Byte) : (wordOfBytes b0 b1).toNat = b0.toNat * 256 + b1.toNat := by
  rw [wordOfBytes, BitVec.toNat_append, ← Nat.shiftLeft_add_eq_or_of_lt b1.isLt, Nat.shiftLeft_eq]

/-- Settles O9: the fetched word is the word of the bytes at pc and pc + 1. -/
theorem fetchIsBigEndian : Obligations.FetchIsBigEndian := fun _ => toNat_wordOfBytes _ _

end Sys2Proof
end

section
/-!
PROOFS. Memory and what is stored in it (spec/20_memory.md R60, R65, R72, R76): the canonical form is unique, and stored and loaded bytes are read back.
-/

namespace Sys2Proof.Machine

theorem Memory.wfFrom_cell {lo c : Nat} {v : Byte} {m : Memory} :
    Memory.wfFrom lo ((c, v) :: m) = true ↔ lo ≤ c ∧ c < 4096 ∧ v ≠ resetByte c ∧ Memory.wfFrom (c + 1) m = true := by
  simp [Memory.wfFrom, and_assoc]

/-- A canonical memory's first address is not above one that does not read its reset contents. -/
theorem Memory.head_le_of_read_ne {lo c a : Nat} {v : Byte} {m : Memory} (h : Memory.wfFrom lo ((c, v) :: m) = true)
    (ha : Memory.read ((c, v) :: m) a ≠ resetByte a) : c ≤ a := by
  obtain ⟨-, -, -, hm⟩ := Memory.wfFrom_cell.1 h
  refine Nat.not_lt.1 fun hlt => ha ?_
  rw [Memory.read_cell, if_neg (by omega), Memory.read_below hm (by omega)]

theorem Memory.read_head (c : Nat) (v : Byte) (m : Memory) : Memory.read ((c, v) :: m) c = v := if_pos rfl

/-- By induction: the first cell is the lowest address that does not read its reset contents, so both memories have the same one, and their tails read the same. -/
theorem Memory.ext_of_wfFrom {lo : Nat} {m m' : Memory} (h : Memory.wfFrom lo m = true)
    (h' : Memory.wfFrom lo m' = true) (hr : ∀ a, m.read a = m'.read a) : m = m' := by
  induction m generalizing lo m' with
  | nil =>
    cases m' with
    | nil => rfl
    | cons cell' m' =>
      obtain ⟨c', v'⟩ := cell'
      obtain ⟨-, -, hv', -⟩ := Memory.wfFrom_cell.1 h'
      exact absurd ((Memory.read_head c' v' m').symm.trans (hr c').symm) hv'
  | cons cell m ih =>
    obtain ⟨c, v⟩ := cell
    obtain ⟨-, -, hv, hm⟩ := Memory.wfFrom_cell.1 h
    have hrc := (hr c).symm.trans (Memory.read_head c v m)
    cases m' with
    | nil => exact absurd hrc.symm hv
    | cons cell' m' =>
      obtain ⟨c', v'⟩ := cell'
      obtain ⟨-, -, hv', hm'⟩ := Memory.wfFrom_cell.1 h'
      have hrc' := (hr c').trans (Memory.read_head c' v' m')
      obtain rfl : c = c' :=
        Nat.le_antisymm (Memory.head_le_of_read_ne h (hrc' ▸ hv')) (Memory.head_le_of_read_ne h' (hrc ▸ hv))
      obtain rfl : v = v' := hrc.symm.trans (Memory.read_head c v' m')
      have htail : ∀ a, Memory.read m a = Memory.read m' a := by
        intro a
        by_cases ha : a = c
        · rw [Memory.read_below hm (by omega), Memory.read_below hm' (by omega)]
        · simpa only [Memory.read_cell, if_neg ha] using hr a
      rw [ih hm hm' htail]

/-- Settles O60: the canonical form from address 0 on. -/
theorem canonicalMemoryIsExtensional : Obligations.CanonicalMemoryIsExtensional := fun _ _ => Memory.ext_of_wfFrom

/-- Memory as numbers after bytes are stored at I inside memory (spec/20_memory.md R72). -/
theorem toNat_read_storeBytes {s : State} {bs : List Byte} {stored : Nat → Nat} (hm : s.mem.wf = true)
    (hin : s.I.toNat + bs.length ≤ 4096) (hbs : ∀ k < bs.length, (bs.getD k 0).toNat = stored k) (a : Nat) :
    ((s.storeBytes params bs).mem.read a).toNat = overlaid s bs.length stored a := by
  rw [read_storeBytes s bs hm (.inr hin), overlaid]
  split
  · exact hbs _ (by omega)
  · rfl

theorem toNat_getD_decimalDigits (v : Byte) : ∀ k < 3, ((decimalDigits v).getD k 0).toNat = decimalDigit v k
  | 0, _ | 1, _ | 2, _ => by simp [decimalDigits, decimalDigit]

theorem toNat_getD_blockOfRegs (s : State) (x : Reg) (k : Nat) (hk : k < x.val + 1) :
    ((blockOfRegs s x).getD k 0).toNat = registerNumber s k := by
  have hk' : Fin.ofNat 16 k = ⟨k, by omega⟩ := Fin.ext (Nat.mod_eq_of_lt (by omega))
  rw [getD_blockOfRegs s x k (by omega), registerNumber, hk']

/-- Settles O38: the next fetch reads the memory that the store leaves, and that memory is the old one overlaid. -/
theorem storedBytesAreFetchedNext : Obligations.StoredBytesAreFetchedNext := by
  intro x s hm
  refine ⟨fun hin => ⟨_, exec_bcd x s hin, rfl, ?_⟩, fun hin => ⟨_, exec_stm x s hin, rfl, ?_⟩⟩
  · have hread := toNat_read_storeBytes (bs := decimalDigits (s.readV x)) hm (by rw [length_decimalDigits]; omega)
      (toNat_getD_decimalDigits (s.readV x))
    rw [fetchIsBigEndian, State.advance_mem, hread, hread, length_decimalDigits]
  · have hread := toNat_read_storeBytes (bs := blockOfRegs s x) hm (by rw [length_blockOfRegs]; omega)
      (by rw [length_blockOfRegs]; exact toNat_getD_blockOfRegs s x)
    rw [fetchIsBigEndian, State.advance_mem, State.setI_mem, hread, hread, length_blockOfRegs]

theorem frame_of_mem (s : State) (m : Memory) : Frame [.mem] s { s with mem := m } := by
  intro e he
  cases e with
  | mem => exact absurd he (by decide)
  | V | stack | key => exact fun _ => rfl
  | fb => exact fun _ _ => rfl
  | I | pc | sp | DT | ST | redraw | fault | tone | started | draws => exact Eq.refl _

theorem loadProgram_of_le (s : State) {bytes : List Byte} (h : bytes.length ≤ 3584) :
    s.loadProgram bytes = { s with mem := s.mem.copy 0x200 bytes } := if_neg (Nat.not_lt.2 h)

theorem loadProgram_of_lt (s : State) {bytes : List Byte} (h : 3584 < bytes.length) : s.loadProgram bytes = s := if_pos h

/-- What `load` answers and reports before the first step (spec/70_reset_and_hazards.md R282). -/
theorem load_before_step {s : State} (bytes : List Byte) (h : s.started = false) :
    operate (.load bytes) s = .next (s.loadProgram bytes) ∧ events (.load bytes) s = [.loaded (loadResult bytes)] := by
  simp [operate, loadOp, events, h]

/-- Settles O49: a program of up to 3584 bytes ends inside memory, where a copy reads back. -/
theorem loadCopiesProgram : Obligations.LoadCopiesProgram := by
  intro s bytes hm
  refine ⟨fun hs hl => ?_, fun hs hl => ?_, fun hs => if_pos hs⟩
  · obtain ⟨hop, hev⟩ := load_before_step bytes hs
    rw [loadProgram_of_le s hl] at hop
    rw [loadResult, if_neg (Nat.not_lt.2 hl)] at hev
    have hread := Memory.read_copy hm bytes (a := 0x200) (by omega)
    refine ⟨_, hop, hev, fun j hj => ?_, fun a ha => ?_, frame_of_mem s _⟩
    · rw [hread, if_pos (by omega), Nat.add_sub_cancel_left]
    · rw [hread, if_neg (by omega)]
  · obtain ⟨hop, hev⟩ := load_before_step bytes hs
    rw [loadProgram_of_lt s hl] at hop
    rw [loadResult, if_pos hl] at hev
    exact ⟨hop, hev⟩

end Sys2Proof.Machine
end

section
/-!
PROOFS. The bound checks of data accesses and of the fetch (spec/20_memory.md R66, R67), and which fatal conditions an instruction raises.
-/

namespace Sys2Proof.Machine

/-- Settles O37: the failing bound check of each form. -/
theorem dataOutOfRangeFaults : Obligations.DataOutOfRangeFaults := fun x y n s =>
  ⟨exec_bcd_fault x s, fun h => ⟨exec_stm_fault x s h, exec_ldm_fault x s h⟩, exec_drw_fault x y n s⟩

/-- An instruction's outcome as regards fatal conditions: it is safe and keeps `fault`, or it is not safe and raises a condition, never that of the fetch. -/
def SafeOrFaults (s : State) (i : Instr) (o : Out) : Prop :=
  (InstrSafe s i ∧ ∃ t, o = .next t ∧ t.fault = s.fault) ∨
    (¬ InstrSafe s i ∧ ∃ f : Fault, o = .next { s with fault := some f } ∧ f.condition ≠ .fetchOutOfRange)

theorem SafeOrFaults.of_check {s : State} {i : Instr} {o : Out} {f : Fault} (hf : f.condition ≠ .fetchOutOfRange)
    (hsafe : InstrSafe s i → ∃ t, o = .next t ∧ t.fault = s.fault)
    (hfault : ¬ InstrSafe s i → o = .next { s with fault := some f }) : SafeOrFaults s i o := by
  by_cases h : InstrSafe s i
  · exact .inl ⟨h, hsafe h⟩
  · exact .inr ⟨h, f, hfault h, hf⟩

theorem skipOnKey_safeOrFaults {s : State} {i : Instr} {x : Reg} (b : Bool)
    (hi : InstrSafe s i ↔ (s.readV x).toNat ≤ 15) : SafeOrFaults s i (skipOnKey params x b s) :=
  .of_check Condition.noConfusion
    (fun h => ⟨_, skipOnKey_of_lt b (Nat.lt_succ_of_le (hi.1 h)), State.skipIf_fault _ _⟩)
    (fun h => skipOnKey_of_ge b (Nat.not_le.1 (mt hi.2 h)))

/-- Case by case the instruction's own check is the negation of its clause of spec/70_reset_and_hazards.md R286; the instructions with no check are always safe. -/
theorem exec_safeOrFaults (i : Instr) (s : State) : SafeOrFaults s i (exec i s) := by
  cases i with
  | ret =>
    exact .of_check Condition.noConfusion (fun h => ⟨_, exec_ret s (Nat.pos_of_ne_zero h), rfl⟩)
      (fun h => exec_ret_fault s (not_not.1 h))
  | call nnn =>
    exact .of_check Condition.noConfusion
      (fun h => ⟨_, exec_call nnn s (Nat.lt_of_le_of_ne (Nat.le_of_lt_succ s.sp.isLt) h), rfl⟩)
      (fun h => exec_call_fault nnn s (not_not.1 h))
  | skp x => exact skipOnKey_safeOrFaults true Iff.rfl
  | sknp x => exact skipOnKey_safeOrFaults false Iff.rfl
  | bcd x =>
    exact .of_check Condition.noConfusion (fun h => ⟨_, exec_bcd x s h, rfl⟩)
      (fun h => exec_bcd_fault x s (Nat.not_le.1 h))
  | stm x =>
    exact .of_check Condition.noConfusion (fun h => ⟨_, exec_stm x s h, rfl⟩)
      (fun h => exec_stm_fault x s (Nat.not_le.1 h))
  | ldm x =>
    exact .of_check Condition.noConfusion (fun h => ⟨_, exec_ldm x s h, by simp⟩)
      (fun h => exec_ldm_fault x s (Nat.not_le.1 h))
  | drw x y n =>
    exact .of_check Condition.noConfusion (fun h => ⟨_, exec_drw x y n s h, rfl⟩)
      (fun h => exec_drw_fault x y n s (Nat.pos_of_ne_zero (not_or.1 h).1) (Nat.not_le.1 (not_or.1 h).2))
  | waitk x =>
    by_cases hk : ∃ k, s.keyDown k = true
    · obtain ⟨k, -, he⟩ := exec_waitk_some x s hk
      exact .inl ⟨trivial, _, he, rfl⟩
    · exact .inl ⟨trivial, _, exec_waitk_none x s (by simpa using hk), rfl⟩
  | sei | snei | se | sne => exact .inl ⟨trivial, _, rfl, State.skipIf_fault _ _⟩
  | _ => exact .inl ⟨trivial, _, rfl, rfl⟩

/-- An instruction run on a state that is not halted leaves no fetch condition. -/
theorem fault_ne_fetchOutOfRange_of_exec {i : Instr} {s t : State} (hs : s.fault = none) (h : exec i s = .next t)
    (w : Word) : t.fault ≠ some (.fetchOutOfRange w) := by
  rcases exec_safeOrFaults i s with ⟨-, u, hu, hk⟩ | ⟨-, f, hf, hc⟩
  · obtain rfl := Host.Outcome.next.inj (h.symm.trans hu)
    simp [hk, hs]
  · obtain rfl := Host.Outcome.next.inj (h.symm.trans hf)
    rintro ⟨⟩
    exact hc rfl

theorem fetchDecode_eq_outOfRange {s : State} (hf : s.fault = none) (hb : 0x0FFF < s.pc.toNat + 1) :
    fetchDecode s = .outOfRange := by
  simp only [fetchDecode, hf, (fetchOutOfBounds_iff s.pc).2 hb, Option.isSome_none, Bool.false_eq_true, if_false, if_true]

/-- Settles O10: the step stops at the fetch bound, or it passes the word over, or it executes an instruction. -/
theorem fetchOutOfRangeFaults : Obligations.FetchOutOfRangeFaults := by
  intro s hf
  refine ⟨fun hb => ?_, fun hb t w h => ?_⟩
  · have hd := fetchDecode_eq_outOfRange hf hb
    exact ⟨by rw [step, hd]; rfl, by rw [stepDiag, hd]⟩
  · rcases step_cases s with ⟨hf', -⟩ | ⟨-, hb', -⟩ | ⟨-, -, -, e⟩ | ⟨i, -, -, -, e⟩
    · exact absurd hf hf'
    · omega
    · obtain rfl := Host.Outcome.next.inj (h.symm.trans e)
      simp [hf]
    · exact fault_ne_fetchOutOfRange_of_exec (s := s.markStarted) hf (e.symm.trans h) w

end Sys2Proof.Machine
end

section
/-!
PROOFS. The decoder against the encoder and the opcode map (spec/30_encoding.md R93, R94, R101): a statement about a word is read off its four digits.
-/

namespace Sys2Proof

theorem decode_wordOf (d : Digits) : decode (wordOf d) = decodeDigits d := by rw [decode, digitsOf_wordOf]

theorem digitsRI_immOf (f x y n : Nibble) : digitsRI f (regOf x) (immOf y n) = { f := f, x := x, y := y, n := n } := by
  simp only [digitsRI, regDigit_regOf, highDigit_immOf, lowDigit_immOf]

/-- No digit of a recognised word is dropped: in each row of the decoder it is a literal or part of an operand (spec/30_encoding.md R93). An operand over several digits gives them back by `digitsA_addrOf` and `digitsRI_immOf`; the other digits are the same by computation. -/
theorem encodeDigits_of_decodeDigits {d : Digits} {i : Instr} (h : decodeDigits d = some i) : encodeDigits i = d := by
  obtain ⟨f, x, y, n⟩ := d
  unfold decodeDigits at h
  split at h <;> cases h <;> subst_vars <;> simp only [encodeDigits, digitsA_addrOf, digitsRI_immOf] <;> rfl

/-- Settles O2: the instruction's digits are the word's digits, and a word is the word of its digits. -/
theorem encodeInvertsDecode : Obligations.EncodeInvertsDecode := by
  intro op i h
  rw [encode, encodeDigits_of_decodeDigits h, wordOf_digitsOf]

/-- Every instruction's word matches its own row: the row's mask keeps just the literal digits. -/
theorem matches_encode (i : Instr) : (opcodeRow i.mnemonic).matches (encode i) = true := by
  cases i with
  | cls | ret => rfl
  | jp | call | lda | jpv0 | sei | snei | ldi | addi | rnd | drw => exact Laws.fits (Laws.wordOf_mask _ _ _ _).1 rfl
  | se | sne | mov | or | and | xor | add | sub | shr | subn | shl =>
    exact Laws.fits (Laws.wordOf_mask _ _ _ _).2.1 rfl
  | skp | sknp | lddt | stdt | stst | waitk | adda | font | bcd | stm | ldm =>
    exact Laws.fits (Laws.wordOf_mask _ _ _ _).2.2 rfl

/-- The digits that a row's mask leaves of a matching word are the row's own. -/
theorem masked_digits_of_matches {r : OpcodeRow} {op : Word} {d : Digits} (h : r.matches op = true)
    (hd : op &&& r.mask = wordOf d) : d = digitsOf r.bits := by
  rw [← eq_of_beq h, hd, digitsOf_wordOf]

/-- A word that matches a row decodes to an instruction of the row: its literal digits are the row's, and the digits that the mask leaves open are operands, which the decoder accepts whatever they are. -/
theorem decode_of_matches {m : Mnemonic} {op : Word} (h : (opcodeRow m).matches op = true) :
    ∃ i, decode op = some i ∧ i.mnemonic = m := by
  obtain ⟨⟨f, x, y, n⟩, rfl⟩ := exists_wordOf op
  rw [decode_wordOf]
  cases m with
  | cls | ret =>
    cases masked_digits_of_matches h BitVec.and_allOnes
    exact ⟨_, rfl, rfl⟩
  | jp | call | lda | jpv0 | sei | snei | ldi | addi | rnd | drw =>
    obtain rfl := congrArg Digits.f (masked_digits_of_matches h (Laws.wordOf_mask f x y n).1)
    exact ⟨_, rfl, rfl⟩
  | se | sne | mov | or | and | xor | add | sub | shr | subn | shl =>
    have hd := masked_digits_of_matches h (Laws.wordOf_mask f x y n).2.1
    obtain rfl := congrArg Digits.f hd
    obtain rfl := congrArg Digits.n hd
    exact ⟨_, rfl, rfl⟩
  | skp | sknp | lddt | stdt | stst | waitk | adda | font | bcd | stm | ldm =>
    have hd := masked_digits_of_matches h (Laws.wordOf_mask f x y n).2.2
    obtain rfl := congrArg Digits.f hd
    obtain rfl := congrArg Digits.y hd
    obtain rfl := congrArg Digits.n hd
    exact ⟨_, rfl, rfl⟩

/-- Settles O3: a recognised word is its instruction's word, which matches its row; a word decodes to an instruction of every row it matches, so there is at most one, and none where it does not decode. -/
theorem oneRowPerRecognisedWord : Obligations.OneRowPerRecognisedWord := by
  intro op
  refine ⟨fun i hi => ?_, fun hn m => Bool.eq_false_iff.2 fun hm => ?_, fun m m' hm hm' => ?_⟩
  · rw [← encodeInvertsDecode op i hi]
    exact matches_encode i
  · obtain ⟨i, hi, -⟩ := decode_of_matches hm
    exact Option.some_ne_none i (hi.symm.trans hn)
  · obtain ⟨i, hi, rfl⟩ := decode_of_matches hm
    obtain ⟨j, hj, rfl⟩ := decode_of_matches hm'
    rw [Option.some.inj (hi.symm.trans hj)]

/-- Settles O7: closed words, evaluated. -/
theorem exampleWordsDecode : Obligations.ExampleWordsDecode := by
  unfold Obligations.ExampleWordsDecode
  decide

end Sys2Proof
end

section
/-!
PROOFS. The unrecognised words (spec/30_encoding.md R95): no instruction's word is in the table, and the decoder reads every word outside of it.
-/

namespace Sys2Proof

/-- The table of unrecognised words on digits, family by family (spec/30_encoding.md R95). -/
def Digits.Unrecognised (d : Digits) : Prop :=
  (d.f = 0x0 ∧ d ≠ ⟨0x0, 0x0, 0xE, 0x0⟩ ∧ d ≠ ⟨0x0, 0x0, 0xE, 0xE⟩) ∨
  ((d.f = 0x5 ∨ d.f = 0x9) ∧ d.n ≠ 0x0) ∨
  (d.f = 0x8 ∧ d.n ∈ ([0x8, 0x9, 0xA, 0xB, 0xC, 0xD, 0xF] : List Nibble)) ∨
  (d.f = 0xE ∧ immOf d.y d.n ∉ ([0x9E, 0xA1] : List Byte)) ∨
  (d.f = 0xF ∧ immOf d.y d.n ∉ ([0x07, 0x0A, 0x15, 0x18, 0x1E, 0x29, 0x33, 0x55, 0x65] : List Byte))

theorem not_unrecognised_encodeDigits (i : Instr) : ¬ (encodeDigits i).Unrecognised := by
  cases i with
  | cls | ret =>
    unfold Digits.Unrecognised
    decide
  | jp | call | lda | jpv0 => simp [encodeDigits, digitsA, Digits.Unrecognised]
  | se | sne | mov | or | and | xor | add | sub | shr | subn | shl | drw =>
    simp [encodeDigits, digitsRR, Digits.Unrecognised]
  | sei | snei | ldi | addi | rnd => simp [encodeDigits, digitsRI, Digits.Unrecognised]
  | skp | sknp | lddt | stdt | stst | waitk | adda | font | bcd | stm | ldm =>
    simp [encodeDigits, digitsRI, Digits.Unrecognised]

/-- Two digits are those of a byte. -/
theorem exists_digits_imm (y n : Nibble) : ∃ nn : Byte, y = highDigit nn ∧ n = lowDigit nn :=
  ⟨immOf y n, (highDigit_immOf y n).symm, (lowDigit_immOf y n).symm⟩

/-- Outside of the table each family leaves the decoder a list of literal digits, and it has a row for each of them. -/
theorem decodeDigits_ne_none_of_not_unrecognised {d : Digits} (h : ¬ d.Unrecognised) : decodeDigits d ≠ none := by
  obtain ⟨f, x, y, n⟩ := d
  simp only [Digits.Unrecognised, not_or, not_and, not_not] at h
  obtain ⟨h0, h59, h8, hE, hF⟩ := h
  have families : ∀ f : Nibble, f ∈ ([0x1, 0x2, 0x3, 0x4, 0x6, 0x7, 0xA, 0xB, 0xC, 0xD] : List Nibble) ∨
      f = 0x0 ∨ (f = 0x5 ∨ f = 0x9) ∨ f = 0x8 ∨ f = 0xE ∨ f = 0xF := by decide
  have lowDigits : ∀ n : Nibble, n ∉ ([0x8, 0x9, 0xA, 0xB, 0xC, 0xD, 0xF] : List Nibble) →
      n ∈ ([0x0, 0x1, 0x2, 0x3, 0x4, 0x5, 0x6, 0x7, 0xE] : List Nibble) := by decide
  rcases families f with hf | rfl | hf | rfl | rfl | rfl
  · fin_cases hf <;> exact Option.some_ne_none _
  · by_cases hc : (⟨0x0, x, y, n⟩ : Digits) = ⟨0x0, 0x0, 0xE, 0x0⟩
    · rw [hc]
      exact Option.some_ne_none _
    · rw [h0 rfl hc]
      exact Option.some_ne_none _
  · obtain rfl := h59 hf
    rcases hf with rfl | rfl <;> exact Option.some_ne_none _
  · have hn := lowDigits n (h8 rfl)
    fin_cases hn <;> exact Option.some_ne_none _
  · obtain ⟨nn, rfl, rfl⟩ := exists_digits_imm y n
    rw [immOf_digits] at hE
    have hnn := hE rfl
    fin_cases hnn <;> exact Option.some_ne_none _
  · obtain ⟨nn, rfl, rfl⟩ := exists_digits_imm y n
    rw [immOf_digits] at hF
    have hnn := hF rfl
    fin_cases hnn <;> exact Option.some_ne_none _

theorem decodeDigits_eq_none_iff (d : Digits) : decodeDigits d = none ↔ d.Unrecognised := by
  refine ⟨fun h => by_contra fun hd => decodeDigits_ne_none_of_not_unrecognised hd h, fun h => ?_⟩
  cases hi : decodeDigits d with
  | none => rfl
  | some i => exact absurd (encodeDigits_of_decodeDigits hi ▸ h) (not_unrecognised_encodeDigits i)

/-- The family of a word is its number divided by 0x1000. -/
theorem toNat_div_wordOf (d : Digits) (k : Nibble) : (wordOf d).toNat / 0x1000 = k.toNat ↔ d.f = k := by
  have hx := d.x.isLt
  have hy := d.y.isLt
  have hn := d.n.isLt
  rw [toNat_wordOf, ← BitVec.toNat_inj]
  omega

/-- Settles O4: the table on digits, written with the word's fields. -/
theorem unrecognisedWordsByFamily : Obligations.UnrecognisedWordsByFamily := by
  intro op
  obtain ⟨d, rfl⟩ := exists_wordOf op
  rw [decode_wordOf, decodeDigits_eq_none_iff, fieldN_wordOf, fieldNN_wordOf]
  simp only [Digits.Unrecognised, ne_eq, ← wordOf_inj, ← toNat_div_wordOf]
  exact Iff.rfl

end Sys2Proof
end

section
/-!
PROOFS. The assembler (spec/30_encoding.md R97, R98, R101): an instruction's line assembles to its word, and the fields put in a row's match lie outside of the row's mask.
-/

namespace Sys2Proof

theorem Instr.accepts_operands (i : Instr) : i.mnemonic.format.accepts i.operands = true := by
  cases i with
  | cls | ret => rfl
  | jp nnn | call nnn | lda nnn | jpv0 nnn => exact decide_eq_true nnn.isLt
  | sei x nn | snei x nn | ldi x nn | addi x nn | rnd x nn =>
    exact Bool.and_eq_true_iff.2 ⟨decide_eq_true x.isLt, decide_eq_true nn.isLt⟩
  | se x y | sne x y | mov x y | or x y | and x y | xor x y | add x y | sub x y | shr x y | subn x y | shl x y =>
    exact Bool.and_eq_true_iff.2 ⟨decide_eq_true x.isLt, decide_eq_true y.isLt⟩
  | drw x y n =>
    have hxy := Bool.and_eq_true_iff.2 ⟨decide_eq_true x.isLt, decide_eq_true y.isLt⟩
    exact Bool.and_eq_true_iff.2 ⟨hxy, decide_eq_true n.isLt⟩
  | skp x | sknp x | lddt x | stdt x | stst x | waitk x | adda x | font x | bcd x | stm x | ldm x =>
    exact decide_eq_true x.isLt

/-- `SHR Vx` alone is the one well-formed line whose operands its row's format does not take (spec/30_encoding.md R97). -/
theorem AsmLine.wf_ins_iff (m : Mnemonic) (os : List AsmOperand) :
    (AsmLine.ins m os).wf = true ↔ m.format.accepts os = true ∨ m = .shr ∧ ∃ o, os = [o] ∧ o.isReg = true := by
  cases m with
  | shr => rcases os with _ | ⟨o, _ | ⟨p, os⟩⟩ <;> simp [AsmLine.wf, Mnemonic.format, Format.accepts]
  | _ => simp [AsmLine.wf]

theorem assembleLine_of_wf {m : Mnemonic} {os : List AsmOperand} (h : (AsmLine.ins m os).wf = true) :
    assembleLine (.ins m os) = some [highByte (assembleWord m os), lowByte (assembleWord m os)] := if_pos h

/-! A field of a word is put in by `|||`. -/

/-- Words are joined digit by digit. -/
theorem wordOf_or (a b : Digits) :
    wordOf a ||| wordOf b = wordOf { f := a.f ||| b.f, x := a.x ||| b.x, y := a.y ||| b.y, n := a.n ||| b.n } := by
  simp only [wordOf, ← BitVec.or_append]

theorem wordOf_orX (f y n : Nibble) (x : Reg) :
    wordOf ⟨f, regDigit x, y, n⟩ = wordOf ⟨f, 0, y, n⟩ ||| BitVec.ofNat 16 ((AsmOperand.reg x.val).asReg.val <<< 8) := by
  have hx : ∀ x : Reg, BitVec.ofNat 16 ((AsmOperand.reg x.val).asReg.val <<< 8) = wordOf ⟨0, regDigit x, 0, 0⟩ := by
    decide
  rw [hx, wordOf_or]
  simp

theorem wordOf_orY (f x n : Nibble) (y : Reg) :
    wordOf ⟨f, x, regDigit y, n⟩ = wordOf ⟨f, x, 0, n⟩ ||| BitVec.ofNat 16 ((AsmOperand.reg y.val).asReg.val <<< 4) := by
  have hy : ∀ y : Reg, BitVec.ofNat 16 ((AsmOperand.reg y.val).asReg.val <<< 4) = wordOf ⟨0, 0, regDigit y, 0⟩ := by
    decide
  rw [hy, wordOf_or]
  simp

theorem wordOf_orN (f x y n : Nibble) : wordOf ⟨f, x, y, n⟩ = wordOf ⟨f, x, y, 0⟩ ||| BitVec.ofNat 16 n.toNat := by
  have hn : ∀ n : Nibble, BitVec.ofNat 16 n.toNat = wordOf ⟨0, 0, 0, n⟩ := by decide
  rw [hn, wordOf_or]
  simp

theorem ofNat_toNat_imm (nn : Byte) : BitVec.ofNat 16 nn.toNat = wordOf ⟨0, 0, highDigit nn, lowDigit nn⟩ := by
  apply BitVec.eq_of_toNat_eq
  have h := toNat_immOf (highDigit nn) (lowDigit nn)
  rw [immOf_digits] at h
  rw [toNat_wordOf, BitVec.toNat_ofNat, Nat.mod_eq_of_lt (by omega), h]
  simp

theorem wordOf_orNN (f x : Nibble) (nn : Byte) :
    wordOf ⟨f, x, highDigit nn, lowDigit nn⟩ = wordOf ⟨f, x, 0, 0⟩ ||| BitVec.ofNat 16 nn.toNat := by
  rw [ofNat_toNat_imm, wordOf_or]
  simp

theorem ofNat_toNat_addr (nnn : Addr) : BitVec.ofNat 16 nnn.toNat = wordOf (digitsA 0 nnn) := by
  apply BitVec.eq_of_toNat_eq
  have h := toNat_addrOf (nnn.extractLsb' 8 4) (nnn.extractLsb' 4 4) (nnn.extractLsb' 0 4)
  rw [addrOf_digits] at h
  rw [toNat_wordOf, BitVec.toNat_ofNat, Nat.mod_eq_of_lt (by omega), h]
  simp [digitsA]

theorem wordOf_orNNN (f : Nibble) (nnn : Addr) :
    wordOf (digitsA f nnn) = wordOf ⟨f, 0, 0, 0⟩ ||| BitVec.ofNat 16 nnn.toNat := by
  rw [ofNat_toNat_addr, wordOf_or]
  simp [digitsA]

/-- The row's match with the operands put in is the instruction's word (spec/30_encoding.md R101): the fields are taken out of it one by one, and what is left is the match. -/
theorem assembleWord_operands (i : Instr) : assembleWord i.mnemonic i.operands = encode i := by
  cases i with
  | cls | ret => rfl
  | jp | call | lda | jpv0 =>
    rw [encode, encodeDigits, wordOf_orNNN]
    rfl
  | sei | snei | ldi | addi | rnd =>
    rw [encode, encodeDigits, digitsRI, wordOf_orNN, wordOf_orX]
    rfl
  | se | sne | mov | or | and | xor | add | sub | shr | subn | shl =>
    rw [encode, encodeDigits, digitsRR, wordOf_orY, wordOf_orX]
    rfl
  | drw =>
    rw [encode, encodeDigits, digitsRR, wordOf_orN, wordOf_orY, wordOf_orX]
    rfl
  | skp | sknp | lddt | stdt | stst | waitk | adda | font | bcd | stm | ldm =>
    rw [encode, encodeDigits, digitsRI, wordOf_orX]
    rfl

/-- Settles O5: the operands are in range by their types, and their fields give the instruction's word. -/
theorem instructionLineAssembles : Obligations.InstructionLineAssembles := by
  intro i
  have hwf : i.line.wf = true := (AsmLine.wf_ins_iff _ _).2 (.inl i.accepts_operands)
  refine ⟨hwf, ?_⟩
  rw [encodeBytes, ← assembleWord_operands]
  exact assembleLine_of_wf hwf

/-! The fields of a format lie outside of the masks of its rows. -/

/-- The mask of the rows of a format (spec/30_encoding.md R93, R94). -/
def Format.mask : Format → Word
  | .fix => 0xFFFF
  | .a | .ri | .rrn => 0xF000
  | .rr => 0xF00F
  | .r => 0xF0FF

theorem mask_opcodeRow (m : Mnemonic) : (opcodeRow m).mask = m.format.mask := by cases m <;> rfl

theorem matches_bits (m : Mnemonic) : (opcodeRow m).matches (opcodeRow m).bits = true := by cases m <;> rfl

/-- Putting in a field outside of the mask keeps the match. -/
theorem matches_or {m : Mnemonic} {w v : Word} (h : (opcodeRow m).matches w = true) (hv : v &&& m.format.mask = 0) :
    (opcodeRow m).matches (w ||| v) = true := by
  rw [← mask_opcodeRow] at hv
  rw [OpcodeRow.matches, BitVec.and_or_distrib_right, hv]
  exact (congrArg (· == _) BitVec.or_zero).trans h

theorem fieldX_and_mask {φ : Format} (h : φ ≠ .fix) (r : Reg) : BitVec.ofNat 16 (r.val <<< 8) &&& φ.mask = 0 := by
  cases φ with
  | fix => exact absurd rfl h
  | a | ri | rrn | rr | r => decide +revert

theorem fieldY_and_mask {φ : Format} (h : φ = .rr ∨ φ = .rrn) (r : Reg) :
    BitVec.ofNat 16 (r.val <<< 4) &&& φ.mask = 0 := by
  rcases h with rfl | rfl <;> decide +revert

theorem number_and_mask {φ : Format} (h : φ = .a ∨ φ = .ri ∨ φ = .rrn) {v : Nat} (hv : v < 0x1000) :
    BitVec.ofNat 16 v &&& φ.mask = 0 := by
  have hd := ofNat_toNat_addr (BitVec.ofNat 12 v)
  rw [BitVec.toNat_ofNat, Nat.mod_eq_of_lt hv] at hd
  rw [hd]
  rcases h with rfl | rfl | rfl <;> exact (Laws.wordOf_mask _ _ _ _).1

theorem AsmOperand.asNat_lt_of_isNum {o : AsmOperand} {bound : Nat} (h : o.isNum bound = true) : o.asNat < bound := by
  cases o with
  | reg i => cases h
  | num v => exact of_decide_eq_true h

/-- The word of a well-formed line matches its row: the match does, and each operand put in keeps it. Only number operands need their bound, and those stand in lines that the format takes, so `SHR Vx` alone needs no argument of its own. -/
theorem matches_assembleWord {m : Mnemonic} {os : List AsmOperand} (h : (AsmLine.ins m os).wf = true) :
    (opcodeRow m).matches (assembleWord m os) = true := by
  have hm := matches_bits m
  have accepted : ∀ φ, m.format = φ → φ ≠ .rr → φ.accepts os = true := by
    rintro _ rfl hrr
    refine ((AsmLine.wf_ins_iff m os).1 h).resolve_right ?_
    rintro ⟨rfl, -⟩
    exact hrr rfl
  unfold assembleWord
  split
  next o hf =>
    have hn := AsmOperand.asNat_lt_of_isNum (accepted .a hf nofun)
    exact matches_or hm (number_and_mask (.inl hf) hn)
  next o p hf =>
    obtain ⟨-, hp⟩ := Bool.and_eq_true_iff.1 (accepted .ri hf nofun)
    have hn := AsmOperand.asNat_lt_of_isNum hp
    have hx := matches_or hm (fieldX_and_mask (hf ▸ nofun) o.asReg)
    exact matches_or hx (number_and_mask (.inr (.inl hf)) (by omega))
  next o p hf =>
    have hx := matches_or hm (fieldX_and_mask (hf ▸ nofun) o.asReg)
    exact matches_or hx (fieldY_and_mask (.inl hf) p.asReg)
  next o hf => exact matches_or hm (fieldX_and_mask (hf ▸ nofun) o.asReg)
  next o p q hf =>
    obtain ⟨-, hq⟩ := Bool.and_eq_true_iff.1 (accepted .rrn hf nofun)
    have hn := AsmOperand.asNat_lt_of_isNum hq
    have hx := matches_or hm (fieldX_and_mask (hf ▸ nofun) o.asReg)
    have hxy := matches_or hx (fieldY_and_mask (.inr hf) p.asReg)
    exact matches_or hxy (number_and_mask (.inr (.inr hf)) (by omega))
  next o hf => exact matches_or hm (fieldX_and_mask (hf ▸ nofun) o.asReg)
  next => exact hm

/-- Settles O6: the line's word matches the mnemonic's row, so it is the word of an instruction of that row. -/
theorem wellFormedLineAssemblesToItsRow : Obligations.WellFormedLineAssemblesToItsRow := by
  intro m os h
  obtain ⟨i, hd, hi⟩ := decode_of_matches (matches_assembleWord h)
  refine ⟨i, hi, ?_⟩
  rw [assembleLine_of_wf h, encodeBytes, encodeInvertsDecode _ i hd]

end Sys2Proof
end

section
/-!
PROOFS. The step cycle (spec/40_step_cycle.md R120 to R127): the outcome of a step in each of the cases of `step_cases`, and its diagnostic.
-/

namespace Sys2Proof.Machine

section

variable {s : State} {i : Instr}

theorem step_of_faulted (h : Faulted s) : step s = .next s := by
  rcases step_cases s with ⟨-, e⟩ | ⟨hf, -⟩ | ⟨hf, -⟩ | ⟨-, hf, -⟩
  · exact e
  all_goals exact absurd hf h

theorem step_of_unrecognised (hf : s.fault = none) (hb : s.pc.toNat + 1 ≤ 0x0FFF) (hd : decode s.fetchWord = none) :
    step s = .next s.markStarted.advance := by
  rcases step_cases s with ⟨hf', -⟩ | ⟨-, hb', -⟩ | ⟨-, -, -, e⟩ | ⟨i, -, -, hd', -⟩
  · exact absurd hf hf'
  · omega
  · exact e
  · cases hd.symm.trans hd'

theorem step_of_executes (h : Executes s i) : step s = exec i s.markStarted := by
  obtain ⟨hf, hb, hd⟩ := h
  rcases step_cases s with ⟨hf', -⟩ | ⟨-, hb', -⟩ | ⟨-, -, hd', -⟩ | ⟨j, -, -, hd', e⟩
  · exact absurd hf hf'
  · omega
  · cases hd.symm.trans hd'
  · cases hd.symm.trans hd'
    exact e

/-- The diagnostic is the unrecognised word's own (spec/40_step_cycle.md R124). -/
theorem stepDiag_eq_some_iff {d : Diag} :
    stepDiag s = some d ↔
      (s.fault = none ∧ s.pc.toNat + 1 ≤ 0x0FFF ∧ decode s.fetchWord = none) ∧ ⟨s.fetchWord, s.pc⟩ = d := by
  rcases fetchDecode_cases s with ⟨hf, h⟩ | ⟨-, hb, h⟩ | ⟨hf, hb, hd, h⟩ | ⟨i, -, -, hd, h⟩
  · simp [stepDiag, h, hf]
  · simp [stepDiag, h, Nat.not_le.2 hb]
  · simp [stepDiag, h, hf, hb, hd]
  · simp [stepDiag, h, hd]

theorem stepDiag_of_faulted (h : Faulted s) : stepDiag s = none :=
  Option.eq_none_iff_forall_ne_some.2 fun _ hd => h (stepDiag_eq_some_iff.1 hd).1.1

theorem stepDiag_of_executes (h : Executes s i) : stepDiag s = none := by
  refine Option.eq_none_iff_forall_ne_some.2 fun d hd => ?_
  obtain ⟨⟨-, -, hnone⟩, -⟩ := stepDiag_eq_some_iff.1 hd
  obtain ⟨-, -, hsome⟩ := h
  cases hnone.symm.trans hsome

theorem decode_of_decodeBytes_pair {b0 b1 : Byte} {rest : List Byte} (h : decodeBytes (b0 :: b1 :: rest) = .instr i rest) :
    decode (wordOfBytes b0 b1) = some i := by
  rw [decodeBytes_pair] at h
  split at h
  next hd =>
    cases h
    exact hd
  next => cases h

theorem State.markStarted_eq_self (h : s.started = true) : s.markStarted = s := by
  cases s
  cases h
  rfl

theorem zextAddr_eq_of_toNat_eq {nnn : Addr} {w : Word} (h : nnn.toNat = w.toNat) : zextAddr nnn = w :=
  BitVec.eq_of_toNat_eq ((BitVec.toNat_setWidth_of_le (by decide)).trans h)

theorem step_of_idle (h : Idle s) : step s = .next s.markStarted := by
  obtain ⟨hf, hb, nnn, hd, htarget⟩ := h
  rw [step_of_executes ⟨hf, Nat.succ_le_succ hb, hd⟩, exec_jp, zextAddr_eq_of_toNat_eq htarget]
  rfl

/-- A fatal condition that an instruction raises is all it changes (spec/60_exceptions.md R241). -/
theorem eq_of_exec_faults {t : State} (hs : s.fault = none) (h : exec i s = .next t) (ht : t.fault ≠ none) :
    t = { s with fault := t.fault } := by
  rcases exec_safeOrFaults i s with ⟨-, u, hu, hk⟩ | ⟨-, f, hf, -⟩
  · cases h.symm.trans hu
    exact absurd (hk.trans hs) ht
  · cases h.symm.trans hf
    rfl

theorem exec_next (i : Instr) (s : State) : ∃ t, exec i s = .next t := by
  obtain ⟨t, ht, -⟩ := exec_effect i s
  exact ⟨t, ht⟩

theorem step_next (s : State) : ∃ t, step s = .next t := by
  rcases step_cases s with ⟨-, e⟩ | ⟨-, -, e⟩ | ⟨-, -, -, e⟩ | ⟨i, -, -, -, e⟩
  · exact ⟨_, e⟩
  · exact ⟨_, e⟩
  · exact ⟨_, e⟩
  · rw [e]
    exact exec_next i s.markStarted

end

/-- Settles O11: the unrecognised case of the step, and the condition under which there is a diagnostic. -/
theorem unrecognisedWordAdvances : Obligations.UnrecognisedWordAdvances := fun _ =>
  ⟨fun hf hb hd => ⟨step_of_unrecognised hf hb hd, stepDiag_eq_some_iff.2 ⟨⟨hf, hb, hd⟩, rfl⟩⟩,
    fun _ h => (stepDiag_eq_some_iff.1 h).1⟩

/-- Settles O12: a halted machine does not step, and the jump of an idle one has its own address as the target. -/
theorem endedRunsStayAsTheyAre : Obligations.EndedRunsStayAsTheyAre := fun _ =>
  ⟨fun h => ⟨step_of_faulted h, stepDiag_of_faulted h⟩,
    fun h => ⟨step_of_idle h, fun hs => (step_of_idle h).trans (congrArg _ (State.markStarted_eq_self hs))⟩⟩

/-- Settles O13: every instruction has an effect, and so every case of the step a next state. -/
theorem everyStepAnswersNext : Obligations.EveryStepAnswersNext := ⟨exec_next, step_next⟩

/-- Settles O14: the step is that of the fetch bound, or its instruction raises the condition. -/
theorem faultingStepKeepsAllElse : Obligations.FaultingStepKeepsAllElse := by
  intro s t hs h ht
  rcases step_cases s with ⟨hs', -⟩ | ⟨-, -, e⟩ | ⟨-, -, -, e⟩ | ⟨i, -, -, -, e⟩
  · exact absurd hs hs'
  · cases h.symm.trans e
    rfl
  · cases h.symm.trans e
    exact absurd hs ht
  · exact eq_of_exec_faults (s := s.markStarted) hs (e.symm.trans h) ht

/-- Settles O8: the word of the two bytes is the fetched word. -/
theorem stepRunsDecodedInstruction : Obligations.StepRunsDecodedInstruction := by
  intro s i hf hb h
  have hx : Executes s i := ⟨hf, hb, decode_of_decodeBytes_pair h⟩
  exact ⟨step_of_executes hx, stepDiag_of_executes hx⟩

end Sys2Proof.Machine
end

section
/-!
PROOFS. Decoding a word from its fields (spec/30_encoding.md R91, R94): what the decoder answers for a word whose literal digits are known, one lemma for each operand format.
-/

namespace Sys2Proof

/-- The mask of a family leaves the first digit. -/
theorem f_eq_of_and_family {d : Digits} {f : Nibble} (h : wordOf d &&& 0xF000 = wordOf ⟨f, 0x0, 0x0, 0x0⟩) : d.f = f :=
  congrArg Digits.f (wordOf_inj.1 ((Laws.wordOf_mask d.f d.x d.y d.n).1.symm.trans h))

/-- The mask of a two-register row leaves the first and the last digit. -/
theorem f_n_eq_of_and_row {d : Digits} {f n : Nibble} (h : wordOf d &&& 0xF00F = wordOf ⟨f, 0x0, 0x0, n⟩) :
    d.f = f ∧ d.n = n := by
  have hd := wordOf_inj.1 ((Laws.wordOf_mask d.f d.x d.y d.n).2.1.symm.trans h)
  exact ⟨congrArg Digits.f hd, congrArg Digits.n hd⟩

theorem wordOf_and_lastDigit (d : Digits) : wordOf d &&& 0x000F = wordOf ⟨0x0, 0x0, 0x0, d.n⟩ := by
  have keep : d.n &&& 0xF = d.n := BitVec.and_allOnes
  have drop : ∀ k : Nibble, k &&& 0x0 = 0x0 := fun _ => BitVec.and_zero
  rw [show (0x000F : Word) = wordOf ⟨0x0, 0x0, 0x0, 0xF⟩ from rfl, wordOf_and]
  simp only [keep, drop]

/-- A word of a family whose rows all take an address. -/
theorem decode_of_addrFamily (f : Nibble) {op : Word} {g : Addr → Instr}
    (hg : ∀ x y n, decodeDigits ⟨f, x, y, n⟩ = some (g (addrOf x y n))) (h : op &&& 0xF000 = wordOf ⟨f, 0x0, 0x0, 0x0⟩) :
    decode op = some (g (fieldNNN op)) := by
  obtain ⟨d, rfl⟩ := exists_wordOf op
  obtain rfl := f_eq_of_and_family h
  rw [decode_wordOf, fieldNNN_wordOf]
  exact hg d.x d.y d.n

/-- A word of a family whose rows all take a register and an immediate. -/
theorem decode_of_immFamily (f : Nibble) {op : Word} {g : Reg → Byte → Instr}
    (hg : ∀ x y n, decodeDigits ⟨f, x, y, n⟩ = some (g (regOf x) (immOf y n)))
    (h : op &&& 0xF000 = wordOf ⟨f, 0x0, 0x0, 0x0⟩) : decode op = some (g (fieldX op) (fieldNN op)) := by
  obtain ⟨d, rfl⟩ := exists_wordOf op
  obtain rfl := f_eq_of_and_family h
  rw [decode_wordOf, fieldX_wordOf, fieldNN_wordOf]
  exact hg d.x d.y d.n

/-- A word of a row that takes two registers. -/
theorem decode_of_regsRow (f n : Nibble) {op : Word} {g : Reg → Reg → Instr}
    (hg : ∀ x y, decodeDigits ⟨f, x, y, n⟩ = some (g (regOf x) (regOf y)))
    (h : op &&& 0xF00F = wordOf ⟨f, 0x0, 0x0, n⟩) : decode op = some (g (fieldX op) (fieldY op)) := by
  obtain ⟨d, rfl⟩ := exists_wordOf op
  obtain ⟨rfl, rfl⟩ := f_n_eq_of_and_row h
  rw [decode_wordOf, fieldX_wordOf, fieldY_wordOf]
  exact hg d.x d.y

/-- The families 5 and 9 have the last digit 0 only (spec/30_encoding.md R95, decision D24). -/
theorem decode_eq_none_of_lastDigit {op : Word} (hf : op &&& 0xF000 = 0x5000 ∨ op &&& 0xF000 = 0x9000)
    (hn : op &&& 0x000F ≠ 0) : decode op = none := by
  obtain ⟨d, rfl⟩ := exists_wordOf op
  rw [decode_wordOf, decodeDigits_eq_none_iff]
  refine .inr (.inl ⟨hf.imp f_eq_of_and_family f_eq_of_and_family, fun h0 => hn ?_⟩)
  rw [wordOf_and_lastDigit, h0]
  rfl

end Sys2Proof
end

section
/-!
PROOFS. Control transfer (spec/41_control_flow.md R130 to R138): jumps, the call and its return, and the skips.
-/

namespace Sys2Proof.Machine

/-! Frames. -/

theorem Frame.mono {l l' : List Elem} {s t : State} (h : Frame l s t) (hl : l ⊆ l') : Frame l' s t :=
  fun e he => h e (fun hm => he (hl hm))

/-- An element that holds the same need not be listed. -/
theorem Frame.tail {a : Elem} {l : List Elem} {s t : State} (h : Frame (a :: l) s t) (ha : SameElem s t a) :
    Frame l s t := by
  intro e he
  by_cases hea : e = a
  · exact hea ▸ ha
  · exact h e (List.not_mem_cons_of_ne_of_not_mem hea he)

/-- Control transfer writes the stack, sp and pc. -/
theorem frame_of_transfer (s : State) (stack : Vector Word 16) (sp : Fin 17) (pc : Word) :
    Frame [.stack, .sp, .pc] s { s with stack := stack, sp := sp, pc := pc } := by
  intro e he
  cases e with
  | stack | sp | pc => exact absurd he (by decide)
  | mem | V | key => exact fun _ => rfl
  | fb => exact fun _ _ => rfl
  | I | DT | ST | redraw | fault | tone | started | draws => exact Eq.refl _

theorem frame_popPc (s : State) (h : 0 < s.sp.val) : Frame [.sp, .pc] s (s.popPc h) :=
  (frame_of_transfer s s.stack _ _).tail fun _ => rfl

theorem frame_jump (s : State) (w : Word) : Frame [.pc] s (s.jump w) :=
  ((frame_of_transfer s s.stack s.sp w).tail fun _ => rfl).tail rfl

theorem frame_skipIf (s : State) (c : Bool) : Frame [.pc] s (s.skipIf c) := by
  cases c with
  | false => exact frame_jump s (s.pc + 2)
  | true => exact frame_jump s (s.pc + 4)

/-! Jump targets. -/

theorem toNat_zextAddr (nnn : Addr) : (zextAddr nnn).toNat = nnn.toNat := BitVec.toNat_setWidth_of_le (by decide)

theorem toNat_zextByte (v : Byte) : (zextByte v).toNat = v.toNat := BitVec.toNat_setWidth_of_le (by decide)

/-- The sum of BNNN's target does not wrap (spec/41_control_flow.md R138). -/
theorem toNat_offsetTarget (s : State) (nnn : Addr) :
    (offsetTarget s nnn).toNat = nnn.toNat + (s.readV 0).toNat := by
  have := nnn.isLt
  have := (s.readV 0).isLt
  rw [offsetTarget, BitVec.toNat_add, toNat_zextAddr, toNat_zextByte, Nat.mod_eq_of_lt (by omega)]

/-- Settles O16: the target is NNN itself, the jump to its own address writes to pc what it holds, and 0x0FFF is past the fetch bound. -/
theorem jumpSetsPc : Obligations.JumpSetsPc := by
  refine ⟨fun op => decode_of_addrFamily 0x1 fun _ _ _ => rfl, fun nnn s =>
    ⟨_, exec_jp nnn s, toNat_zextAddr nnn, frame_jump s _, fun hself => ?_, ?_⟩⟩
  · rw [zextAddr_eq_of_toNat_eq hself]
    rfl
  · rintro rfl hf
    have hb : 0x0FFF < (zextAddr 0xFFF).toNat + 1 := by decide
    obtain ⟨hstep, -⟩ := (fetchOutOfRangeFaults (s.jump (zextAddr 0xFFF)) hf).1 hb
    exact ⟨_, hstep, rfl⟩

/-- Settles O17: the target does not wrap. -/
theorem jumpAddsV0 : Obligations.JumpAddsV0 := fun nnn s =>
  ⟨_, exec_jpv0 nnn s, toNat_offsetTarget s nnn, frame_jump s _⟩

/-! Call and return. -/

/-- Settles O18: the push writes the one entry, and the jump goes to NNN itself. -/
theorem callPushesReturnAddress : Obligations.CallPushesReturnAddress := fun nnn s h =>
  ⟨_, exec_call nnn s h, Vector.getElem_set_self h, rfl, toNat_zextAddr nnn,
    fun k hk => Vector.getElem_set_ne h k.isLt (Ne.symm hk), frame_of_transfer s _ _ _⟩

/-- Settles O19: the entry below sp is the one popped. -/
theorem returnPopsPc : Obligations.ReturnPopsPc := by
  intro s k hk
  have hpos : 0 < s.sp.val := by omega
  have htop : s.sp.val - 1 = k.val := by omega
  refine ⟨_, exec_ret s hpos, ?_, htop, frame_popPc s hpos⟩
  simp only [State.popPc_pc, htop]

/-- Settles O21: the return pops the entry that the call has pushed, and leaves the rest of the stack to the call. -/
theorem callThenReturn : Obligations.CallThenReturn := by
  intro nnn s t hroom hcall
  obtain ⟨t', hcall', htop, hsp, -, hkept, hframe⟩ := callPushesReturnAddress nnn s hroom
  cases hcall.symm.trans hcall'
  obtain ⟨u, hret, hpc, hsp', hframe'⟩ := returnPopsPc t ⟨s.sp.val, hroom⟩ hsp
  have hstack : SameElem t u .stack := hframe' .stack (by decide)
  have hsame : u.sp = s.sp := Fin.ext hsp'
  have hboth : Frame [.sp, .stack, .pc] s u := (hframe.mono (by decide)).trans (hframe'.mono (by decide))
  exact ⟨u, hret, hpc.trans htop, hsame, fun k hk => (hstack k).trans (hkept k hk.ne), hboth.tail hsame⟩

/-! Skips. -/

theorem skipIf_pc_of_true (s : State) {c : Bool} (h : c = true) : (s.skipIf c).pc = s.pc + 4 := by
  rw [State.skipIf_pc, if_pos h]

theorem skipIf_pc_of_false (s : State) {c : Bool} (h : c = false) : (s.skipIf c).pc = s.pc + 2 := by
  rw [State.skipIf_pc, h, if_neg Bool.false_ne_true]

/-- The skip on equality of two bytes (spec/41_control_flow.md R137). -/
theorem skipIf_beq (s : State) (a b : Byte) :
    Frame [.pc] s (s.skipIf (a == b)) ∧ (a = b → (s.skipIf (a == b)).pc = s.pc + 4) ∧
      (a ≠ b → (s.skipIf (a == b)).pc = s.pc + 2) :=
  ⟨frame_skipIf s _, fun h => skipIf_pc_of_true s (beq_iff_eq.2 h), fun h => skipIf_pc_of_false s (beq_false_of_ne h)⟩

/-- The skip on difference of two bytes (spec/41_control_flow.md R137). -/
theorem skipIf_bne (s : State) (a b : Byte) :
    Frame [.pc] s (s.skipIf (a != b)) ∧ (a ≠ b → (s.skipIf (a != b)).pc = s.pc + 4) ∧
      (a = b → (s.skipIf (a != b)).pc = s.pc + 2) :=
  ⟨frame_skipIf s _, fun h => skipIf_pc_of_true s (bne_iff_ne.2 h),
    fun h => skipIf_pc_of_false s (bne_eq_false_iff_eq.2 h)⟩

/-- Settles O22: each form is its comparison's skip. -/
theorem skipOnImmediate : Obligations.SkipOnImmediate :=
  ⟨fun _ => ⟨decode_of_immFamily 0x3 fun _ _ _ => rfl, decode_of_immFamily 0x4 fun _ _ _ => rfl⟩,
    fun x nn s => ⟨⟨_, exec_sei x nn s, skipIf_beq s (s.readV x) nn⟩,
      ⟨_, exec_snei x nn s, skipIf_bne s (s.readV x) nn⟩⟩⟩

/-- Settles O23: each form is its comparison's skip, and a register is equal to itself. -/
theorem skipOnRegisters : Obligations.SkipOnRegisters := by
  refine ⟨fun op => ⟨decode_of_regsRow 0x5 0x0 fun _ _ => rfl, decode_of_regsRow 0x9 0x0 fun _ _ => rfl,
    decode_eq_none_of_lastDigit⟩, fun x y s => ⟨?_, ?_⟩⟩
  · obtain ⟨hframe, heq, hne⟩ := skipIf_beq s (s.readV x) (s.readV y)
    exact ⟨_, exec_se x y s, hframe, heq, hne, fun hxy => heq (congrArg s.readV hxy)⟩
  · obtain ⟨hframe, hne, heq⟩ := skipIf_bne s (s.readV x) (s.readV y)
    exact ⟨_, exec_sne x y s, hframe, hne, heq, fun hxy => heq (congrArg s.readV hxy)⟩

end Sys2Proof.Machine
end

section
/-!
PROOFS. Register load, arithmetic, logic, shifts and random (spec/42_alu.md R150 to R164): what a result in VX, with or without a flag in VF, leaves unchanged, and what the results and flags are as numbers.
-/

namespace Sys2Proof.Machine

/-! A result in VX, and a flag in VF after it (spec/00_scope.md R8). -/

/-- The register instructions write V, pc and the count of draws. -/
theorem frame_of_result (s : State) (V : Vector Byte 16) (pc : Word) (draws : Nat) :
    Frame [.draws, .V, .pc] s { s with V := V, pc := pc, draws := draws } := by
  intro e he
  cases e with
  | draws | V | pc => exact absurd he (by decide)
  | mem | stack | key => exact fun _ => rfl
  | fb => exact fun _ _ => rfl
  | I | sp | DT | ST | redraw | fault | tone | started => exact Eq.refl _

theorem readV_result (s : State) (x : Reg) (v : Byte) : (s.writeV x v).advance.readV x = v := readV_writeV_self s x v

theorem result_frame (s : State) (x : Reg) (v : Byte) :
    (s.writeV x v).advance.pc = s.pc + 2 ∧ RegFrame [x] s (s.writeV x v).advance ∧
      Frame [.V, .pc] s (s.writeV x v).advance :=
  ⟨rfl, fun _ hr => readV_writeV_ne s v (List.ne_of_not_mem_cons hr), (frame_of_result s _ _ s.draws).tail rfl⟩

theorem readV_resultFlag (s : State) {x : Reg} (v : Byte) (f : Bool) (hx : x ≠ vf) :
    ((s.writeV x v).writeFlag f).advance.readV x = v :=
  (readV_writeFlag_ne _ f hx).trans (readV_writeV_self s x v)

/-- The flag is written last: it stands in VF for every X (decision D11). -/
theorem readV_vf_resultFlag (s : State) (x : Reg) (v : Byte) (f : Bool) :
    ((s.writeV x v).writeFlag f).advance.readV vf = flagByte f :=
  readV_writeV_self (s.writeV x v) vf (flagByte f)

theorem resultFlag_frame (s : State) (x : Reg) (v : Byte) (f : Bool) :
    ((s.writeV x v).writeFlag f).advance.pc = s.pc + 2 ∧ RegFrame [x, vf] s ((s.writeV x v).writeFlag f).advance ∧
      Frame [.V, .pc] s ((s.writeV x v).writeFlag f).advance := by
  refine ⟨rfl, fun r hr => ?_, (frame_of_result s _ _ s.draws).tail rfl⟩
  have hx : r ≠ x := List.ne_of_not_mem_cons hr
  have hvf : r ≠ vf := List.ne_of_not_mem_cons (List.not_mem_of_not_mem_cons hr)
  exact (readV_writeFlag_ne _ f hvf).trans (readV_writeV_ne s v hx)

/-- A register that receives its own value changes nothing. -/
theorem writeV_readV_self (s : State) (x : Reg) : s.writeV x (s.readV x) = s := by
  simp only [State.writeV, State.readV, Vector.set_getElem_self]

/-! Results and flags as numbers. -/

/-- A difference wraps modulo 256. -/
theorem toNat_byte_sub (a b : Byte) : (a - b).toNat = (a.toNat + 256 - b.toNat) % 256 := by
  have := b.isLt
  rw [BitVec.toNat_sub]
  omega

theorem toNat_byte_ushiftRight_one (a : Byte) : (a >>> 1).toNat = a.toNat / 2 := by
  rw [BitVec.toNat_ushiftRight, Nat.shiftRight_one]

theorem toNat_byte_shiftLeft_one (a : Byte) : (a <<< 1).toNat = a.toNat * 2 % 256 := by
  rw [BitVec.toNat_shiftLeft, Nat.shiftLeft_eq]

theorem flagByte_decide (p : Prop) [Decidable p] : flagByte (decide p) = if p then 1 else 0 := by
  simp only [flagByte, decide_eq_true_eq]

theorem flagByte_carryOut (a b : Byte) : flagByte (carryOut a b) = if a.toNat + b.toNat > 255 then 1 else 0 :=
  flagByte_decide _

theorem flagByte_noBorrow (a b : Byte) : flagByte (noBorrow a b) = if a.toNat ≥ b.toNat then 1 else 0 :=
  flagByte_decide _

theorem toNat_flagByte (f : Bool) : (flagByte f).toNat = f.toNat := by
  cases f with
  | _ => rfl

theorem toNat_flagByte_lowBit (a : Byte) : (flagByte (lowBit a)).toNat = a.toNat % 2 := by
  rw [toNat_flagByte, lowBit, BitVec.getLsbD, Nat.toNat_testBit, pow_zero, Nat.div_one]

theorem toNat_flagByte_highBit (a : Byte) : (flagByte (highBit a)).toNat = a.toNat / 128 := by
  have := a.isLt
  rw [toNat_flagByte, highBit, BitVec.getLsbD, Nat.toNat_testBit]
  omega

/-! Load, add immediate and assign. -/

/-- Settles O24: each form is a result in VX, NN itself or the sum. -/
theorem loadAndAddImmediate : Obligations.LoadAndAddImmediate := by
  refine ⟨fun op => ⟨decode_of_immFamily 0x6 fun _ _ _ => rfl, decode_of_immFamily 0x7 fun _ _ _ => rfl⟩,
    fun x nn s => ⟨⟨_, exec_ldi x nn s, readV_result s x nn, result_frame s x nn⟩,
      ⟨_, exec_addi x nn s, ?_, result_frame s x _⟩⟩⟩
  rw [readV_result, BitVec.toNat_add]

/-- Settles O25: VY keeps its value also where it is VX, since VX then receives its own value. -/
theorem assignRegister : Obligations.AssignRegister := by
  refine ⟨fun op => decode_of_regsRow 0x8 0x0 fun _ _ => rfl, fun x y s => ?_⟩
  obtain ⟨hpc, hregs, hframe⟩ := result_frame s x (s.readV y)
  refine ⟨_, exec_mov x y s, readV_result s x _, ?_, hpc, hregs, hframe, ?_⟩
  · rw [readV_advance, State.readV_writeV, ite_self]
  · rintro rfl
    rw [writeV_readV_self]
    exact frame_jump s _

/-! Bitwise logic. -/

/-- Settles O26: each form is a result in VX, and with X = Y the operation on one and the same byte. -/
theorem bitwiseLogic : Obligations.BitwiseLogic := by
  refine ⟨fun op => ⟨decode_of_regsRow 0x8 0x1 fun _ _ => rfl, decode_of_regsRow 0x8 0x2 fun _ _ => rfl,
    decode_of_regsRow 0x8 0x3 fun _ _ => rfl⟩, fun x y s =>
      ⟨⟨_, exec_or x y s, fun k _ => ?_, fun hxy => ?_, result_frame s x _⟩,
        ⟨_, exec_and x y s, fun k _ => ?_, fun hxy => ?_, result_frame s x _⟩,
        ⟨_, exec_xor x y s, fun k _ => ?_, fun hxy => ?_, result_frame s x _⟩⟩⟩
  · rw [readV_result, BitVec.getLsbD_or]
  · rw [readV_result, hxy, BitVec.or_self]
  · rw [readV_result, BitVec.getLsbD_and]
  · rw [readV_result, hxy, BitVec.and_self]
  · rw [readV_result, BitVec.getLsbD_xor]
  · rw [readV_result, hxy, BitVec.xor_self]
    rfl

/-! Arithmetic and shifts with a flag. -/

/-- Settles O27: each form is a result in VX and a flag in VF, on the operands' values before. -/
theorem addAndSubtractWithFlag : Obligations.AddAndSubtractWithFlag := by
  intro x y s
  refine ⟨⟨_, exec_add x y s, fun hx => ?_, ?_, resultFlag_frame s x _ _⟩,
    ⟨_, exec_sub x y s, fun hx => ?_, ?_, resultFlag_frame s x _ _⟩,
    ⟨_, exec_subn x y s, fun hx => ?_, ?_, resultFlag_frame s x _ _⟩⟩
  · rw [readV_resultFlag s _ _ hx, BitVec.toNat_add]
  · rw [readV_vf_resultFlag, flagByte_carryOut]
  · rw [readV_resultFlag s _ _ hx, toNat_byte_sub]
  · rw [readV_vf_resultFlag, flagByte_noBorrow]
  · rw [readV_resultFlag s _ _ hx, toNat_byte_sub]
  · rw [readV_vf_resultFlag, flagByte_noBorrow]

/-- Settles O28: each form is a result in VX and a flag in VF, and the flag is the bit shifted out. -/
theorem shiftWithFlag : Obligations.ShiftWithFlag := by
  intro x y s
  refine ⟨⟨_, exec_shr x y s, fun hx => ?_, ?_, resultFlag_frame s x _ _⟩,
    ⟨_, exec_shl x y s, fun hx => ?_, ?_, resultFlag_frame s x _ _⟩⟩
  · rw [readV_resultFlag s _ _ hx, toNat_byte_ushiftRight_one]
  · rw [readV_vf_resultFlag, toNat_flagByte_lowBit]
  · rw [readV_resultFlag s _ _ hx, toNat_byte_shiftLeft_one]
  · rw [readV_vf_resultFlag, toNat_flagByte_highBit]

/-! Random. -/

/-- Settles O29: the draw is counted, and the masked byte is a result in VX. -/
theorem randomByteUnderMask : Obligations.RandomByteUnderMask := by
  intro x nn s
  obtain ⟨hpc, hregs, -⟩ := result_frame s.countDraw x (Config.randByte s.draws &&& nn)
  refine ⟨_, exec_rnd x nn s, readV_result _ x _, rfl, fun k hk => ?_, hpc, hregs,
    (frame_of_result s _ _ _).mono (by decide)⟩
  rw [readV_result, BitVec.getLsbD_and, hk, Bool.and_false]

end Sys2Proof.Machine
end

section
/-!
PROOFS. The index register and memory transfer (spec/43_index_memory.md R181 to R186): what I becomes, what a block stored at I leaves in memory, and what a block loaded from I leaves in the registers.
-/

namespace Sys2Proof.Machine

/-! The index register. -/

theorem frame_of_index (s : State) (I pc : Word) : Frame [.I, .pc] s { s with I := I, pc := pc } := by
  intro e he
  cases e with
  | I | pc => exact absurd he (by decide)
  | mem | V | stack | key => exact fun _ => rfl
  | fb => exact fun _ _ => rfl
  | sp | DT | ST | redraw | fault | tone | started | draws => exact Eq.refl _

theorem flagByte_indexOverflow (i : Word) (a : Byte) :
    flagByte (indexOverflow i a) = if i.toNat + a.toNat > 0x0FFF then 1 else 0 := flagByte_decide _

/-- Five times a byte does not wrap (spec/43_index_memory.md R183). -/
theorem toNat_glyphAddress (v : Byte) : (glyphAddress v).toNat = v.toNat * 5 := by
  have hv := v.isLt
  have hfive : (5 : Word).toNat = 5 := rfl
  rw [glyphAddress, BitVec.toNat_mul, toNat_zextByte, hfive, Nat.mod_eq_of_lt (by omega)]

theorem frame_advance_writeFlag (s : State) (f : Bool) : Frame [.V, .pc] s (s.writeFlag f).advance :=
  (frame_of_result s _ _ s.draws).tail rfl

/-- Settles O32: I takes the sum and VF, written last, the flag; both are of the operands' values before. -/
theorem addToIndex : Obligations.AddToIndex := by
  intro x s
  have hindex : Frame [.I, .V, .pc] s (s.setI (s.I + zextByte (s.readV x))) :=
    (frame_of_index s _ s.pc).mono (by decide)
  refine ⟨_, exec_adda x s, ?_, ?_, rfl, fun r hr => ?_,
    hindex.trans ((frame_advance_writeFlag _ _).mono (by decide))⟩
  · rw [State.advance_I, State.writeFlag_I, State.setI_I, BitVec.toNat_add, toNat_zextByte]
  · rw [readV_advance, State.readV_writeFlag, if_pos rfl, flagByte_indexOverflow]
  · exact readV_writeFlag_ne _ _ (List.ne_of_not_mem_cons hr)

/-- Settles O31: a word of family A carries the address, and its 12 bits are extended by zeros. -/
theorem loadIndex : Obligations.LoadIndex :=
  ⟨fun _ => decode_of_addrFamily 0xA fun _ _ _ => rfl,
    fun nnn s => ⟨_, exec_lda nnn s, toNat_zextAddr nnn, rfl, frame_of_index s _ _⟩⟩

/-- Settles O33: the product does not wrap. -/
theorem fontAddress : Obligations.FontAddress := fun x s =>
  ⟨_, exec_font x s, toNat_glyphAddress (s.readV x), rfl, frame_of_index s _ _⟩

/-! Memory transfer. -/

/-- A block stored at I inside memory: its bytes read in order from I, and no other byte changes (spec/20_memory.md R65). -/
theorem storeBytes_block {s : State} {bs : List Byte} (hm : s.mem.wf = true) (hin : s.I.toNat + bs.length ≤ 4096) :
    (∀ k < bs.length, (s.storeBytes params bs).mem.read (s.I.toNat + k) = bs.getD k 0) ∧
      MemFrame s.I.toNat bs.length s (s.storeBytes params bs) := by
  have hread := read_storeBytes s bs hm (.inr hin)
  refine ⟨fun k hk => ?_, fun a ha => ?_⟩
  · rw [hread, if_pos (by omega), Nat.add_sub_cancel_left]
  · rw [hread, if_neg (by omega)]

theorem frame_advance_storeBytes (s : State) (bs : List Byte) :
    Frame [.mem, .pc] s (s.storeBytes params bs).advance :=
  ((frame_of_mem s _).mono (by decide)).trans ((frame_jump (s.storeBytes params bs) _).mono (by decide))

/-- Settles O34: the block of the three digits, stored at I. -/
theorem decimalDigitsStored : Obligations.DecimalDigitsStored := by
  intro x s hm hin
  obtain ⟨hread, hmem⟩ := storeBytes_block (bs := decimalDigits (s.readV x)) hm (by rw [length_decimalDigits]; omega)
  have hdigit : ∀ k < 3, ((s.storeBytes params (decimalDigits (s.readV x))).mem.read (s.I.toNat + k)).toNat =
      decimalDigit (s.readV x) k := fun k hk => by rw [hread k hk, toNat_getD_decimalDigits _ k hk]
  exact ⟨_, exec_bcd x s hin, hdigit 0 (by decide), hdigit 1 (by decide), hdigit 2 (by decide), hmem, rfl,
    frame_advance_storeBytes s _⟩

/-- Settles O35: the block of V0..VX, stored at I, and I written with the value it has. -/
theorem registersStored : Obligations.RegistersStored := by
  intro x s hm hin
  obtain ⟨hread, hmem⟩ := storeBytes_block (bs := blockOfRegs s x) hm (by rw [length_blockOfRegs]; omega)
  rw [length_blockOfRegs] at hread hmem
  exact ⟨_, exec_stm x s hin, fun r hr => (hread r.val (Nat.lt_succ_of_le hr)).trans (getD_blockOfRegs s x r.val hr),
    hmem, rfl, frame_advance_storeBytes s _⟩

/-- New registers, and I written with the value it has: stated for any V, since comparing with a computed V unfolds it. -/
theorem regs_frame (s : State) (V : Vector Byte 16) :
    (State.setI { s with V := V } s.I).advance.pc = s.pc + 2 ∧
      Frame [.V, .pc] s (State.setI { s with V := V } s.I).advance :=
  ⟨rfl, (frame_of_result s V _ s.draws).tail rfl⟩

/-- Settles O36: the block at I, loaded into the registers up to X. -/
theorem registersLoaded : Obligations.RegistersLoaded := by
  intro x s hin
  refine ⟨_, exec_ldm x s hin, fun r hr => ?_, fun r hr => ?_, regs_frame s _⟩
  · rw [readV_advance, State.readV_setI, readV_loadRegs, if_pos hr]
  · rw [readV_advance, State.readV_setI, readV_loadRegs, if_neg (Fin.not_le.2 hr)]

end Sys2Proof.Machine
end

section
/-!
PROOFS. Display (spec/44_display.md R200 to R202): the cleared screen, a sprite drawn on the wrapped pixels, its collision flag, and the same sprite drawn twice.
-/

namespace Sys2Proof.Machine

/-- Showing a framebuffer writes the pixels and `redraw` only (spec/10_state.md R30). -/
theorem frame_show (s : State) (fb : Framebuffer) : Frame [.fb, .redraw] s (s.show fb) := by
  intro e he
  cases e with
  | fb | redraw => exact absurd he (by decide)
  | mem | V | stack | key => exact fun _ => rfl
  | I | pc | sp | DT | ST | fault | tone | started | draws => exact Eq.refl _

/-- A word whose every digit is literal. -/
theorem eq_of_and_fix {op w : Word} (h : op &&& 0xFFFF = w) : op = w := BitVec.and_allOnes.symm.trans h

/-- Settles O39: the blank framebuffer is shown, whatever was there. -/
theorem clearScreen : Obligations.ClearScreen := by
  refine ⟨fun op hop => ?_, fun s => ⟨_, exec_cls s, pixelAt_blank, rfl, rfl, ?_⟩⟩
  · rw [eq_of_and_fix hop]
    exact decode_encode .cls
  · exact ((frame_show s _).mono (by decide)).trans ((frame_jump (s.show blankFramebuffer) _).mono (by decide))

/-! The sprite of DXYN. -/

theorem spriteColumn_of_val {x0 : Byte} {u : Fin 64} {col : Nat} (hcol : col < 64) (hu : u.val = (x0.toNat + col) % 64) :
    spriteColumn x0 u = col := (columnOf_eq x0 u col hcol).1 (Fin.ext hu)

theorem spriteRow_of_val {y0 : Byte} {v : Fin 32} {row : Nat} (hrow : row < 32) (hv : v.val = (y0.toNat + row) % 32) :
    spriteRow y0 v = row := (rowOf_eq y0 v row hrow).1 (Fin.ext hv)

/-- Every pixel lies at a column and a row counted from the start coordinates, modulo 64 and 32 (spec/44_display.md R202). -/
theorem exists_column_row (x0 y0 : Byte) (u : Fin 64) (v : Fin 32) :
    ∃ col row, col < 64 ∧ row < 32 ∧ u.val = (x0.toNat + col) % 64 ∧ v.val = (y0.toNat + row) % 32 := by
  have hc : spriteColumn x0 u < 64 := Nat.mod_lt _ (by decide)
  have hr : spriteRow y0 v < 32 := Nat.mod_lt _ (by decide)
  exact ⟨_, _, hc, hr, congrArg Fin.val ((columnOf_eq x0 u _ hc).2 rfl), congrArg Fin.val ((rowOf_eq y0 v _ hr).2 rfl)⟩

/-- The bit that reaches a pixel, of the sprite at I: bit 7 leftmost (spec/44_display.md R200, decision D17). -/
theorem spriteAt_loadBytes (s : State) (x0 y0 : Byte) (n : Nat) (u : Fin 64) (v : Fin 32) :
    spriteAt params x0 y0 (s.loadBytes params n) u v =
      (decide (spriteColumn x0 u < 8) && decide (spriteRow y0 v < n) &&
        (s.mem.read (s.I.toNat + spriteRow y0 v)).getLsbD (7 - spriteColumn x0 u)) := by
  rw [spriteAt, length_loadBytes]
  by_cases hrow : spriteRow y0 v < n
  · rw [getD_loadBytes s n _ hrow, spriteBit_params]
  · rw [decide_eq_false hrow, Bool.and_false, Bool.false_and, Bool.false_and]

/-- A sprite of DXYN is no higher than the screen. -/
theorem length_sprite_le (s : State) (n : Nibble) : (s.loadBytes params n.toNat).length ≤ 32 := by
  have := n.isLt
  rw [length_loadBytes]
  omega

/-- The drawing hits exactly if one of its pixels goes from 1 to 0 (spec/44_display.md R202). -/
theorem hit_spriteDrawing_iff (x y : Reg) (n : Nibble) (s : State) :
    (spriteDrawing params x y n s).hit = true ↔
      ∃ u v, pixelAt s.fb u v = true ∧ pixelAt (spriteDrawing params x y n s).fb u v = false := by
  have hlen := length_sprite_le s n
  rw [spriteDrawing, hit_drawSprite _ _ _ _ hlen]
  refine exists_congr fun u => exists_congr fun v => and_congr_right fun hset => ?_
  rw [pixelAt_drawSprite _ _ _ _ hlen, hset, Bool.true_xor, Bool.not_eq_false']

theorem flagByte_of_iff {f : Bool} {p : Prop} (h : f = true ↔ p) : (p → flagByte f = 1) ∧ (¬ p → flagByte f = 0) :=
  ⟨fun hp => if_pos (h.2 hp), fun hp => if_neg (mt h.1 hp)⟩

/-- Settles O40: the pixels are those of the drawing, and VF, written last, holds its hit. -/
theorem spriteDrawn : Obligations.SpriteDrawn := by
  intro x y n s hin
  obtain ⟨hone, hzero⟩ := flagByte_of_iff (hit_spriteDrawing_iff x y n s)
  have hvf : ((s.show (spriteDrawing params x y n s).fb).writeFlag (spriteDrawing params x y n s).hit).advance.readV vf =
      flagByte (spriteDrawing params x y n s).hit := readV_writeV_self _ vf _
  refine ⟨_, exec_drw x y n s hin, fun u v col row hcol hrow hu hv => ?_, fun h => hvf.trans (hone h),
    fun h => hvf.trans (hzero h), rfl, rfl, fun r hr => readV_writeFlag_ne _ _ (List.ne_of_not_mem_cons hr),
    ((frame_show s _).mono (by decide)).trans ((frame_advance_writeFlag _ _).mono (by decide))⟩
  calc pixelAt (spriteDrawing params x y n s).fb u v
      = (pixelAt s.fb u v ^^ spriteAt params (s.readV x) (s.readV y) (s.loadBytes params n.toNat) u v) :=
        pixelAt_drawSprite _ _ _ _ (length_sprite_le s n) s.fb u v
    _ = _ := by rw [spriteAt_loadBytes, spriteColumn_of_val hcol hu, spriteRow_of_val hrow hv]

/-- Settles O41: the second draw reads the coordinates and the sprite of the first, so it inverts the same pixels; a pixel that the first has set without a collision goes back to 0. -/
theorem spriteDrawnTwice : Obligations.SpriteDrawnTwice := by
  intro x y n s t hx hy hin hdraw
  obtain ⟨t', hdraw', hpix, hone, -, -, -, hregs, hframe⟩ := spriteDrawn x y n s hin
  cases hdraw.symm.trans hdraw'
  have hI : t.I = s.I := hframe .I (by decide)
  have hmem : SameElem s t .mem := hframe .mem (by decide)
  have hrx : t.readV x = s.readV x := hregs x (mt List.mem_singleton.1 hx)
  have hry : t.readV y = s.readV y := hregs y (mt List.mem_singleton.1 hy)
  obtain ⟨w, hdrawAgain, hpix', hone', -⟩ := spriteDrawn x y n t (hI.symm ▸ hin)
  have hrestored : ∀ u v, pixelAt w.fb u v = pixelAt s.fb u v := by
    intro u v
    obtain ⟨col, row, hcol, hrow, hu, hv⟩ := exists_column_row (s.readV x) (s.readV y) u v
    rw [hpix' u v col row hcol hrow (hrx ▸ hu) (hry ▸ hv), hI, hmem, hpix u v col row hcol hrow hu hv, Bool.xor_assoc,
      Bool.xor_self, Bool.xor_false]
  refine ⟨w, hdrawAgain, framebuffer_ext hrestored, fun hvf ⟨u, v, hne⟩ => hone' ⟨u, v, ?_⟩⟩
  cases hs : pixelAt s.fb u v with
  | false => exact ⟨Bool.eq_true_of_not_eq_false (hs ▸ hne), (hrestored u v).trans hs⟩
  | true =>
    have hflag := hone ⟨u, v, hs, Bool.eq_false_of_not_eq_true (hs ▸ hne)⟩
    exact absurd (hvf.symm.trans hflag) (by decide)

end Sys2Proof.Machine
end

section
/-!
PROOFS. Decoding a word from its fields (spec/30_encoding.md R91, R94): the rows that take one register.
-/

namespace Sys2Proof

/-- The mask of a one-register row leaves every digit but X. -/
theorem f_y_n_eq_of_and_row {d : Digits} {f y n : Nibble} (h : wordOf d &&& 0xF0FF = wordOf ⟨f, 0x0, y, n⟩) :
    d.f = f ∧ d.y = y ∧ d.n = n := by
  have hd := wordOf_inj.1 ((Laws.wordOf_mask d.f d.x d.y d.n).2.2.symm.trans h)
  exact ⟨congrArg Digits.f hd, congrArg Digits.y hd, congrArg Digits.n hd⟩

/-- A word of a row that takes one register. -/
theorem decode_of_regRow (f y n : Nibble) {op : Word} {g : Reg → Instr}
    (hg : ∀ x, decodeDigits ⟨f, x, y, n⟩ = some (g (regOf x))) (h : op &&& 0xF0FF = wordOf ⟨f, 0x0, y, n⟩) :
    decode op = some (g (fieldX op)) := by
  obtain ⟨d, rfl⟩ := exists_wordOf op
  obtain ⟨rfl, rfl, rfl⟩ := f_y_n_eq_of_and_row h
  rw [decode_wordOf, fieldX_wordOf]
  exact hg d.x

end Sys2Proof
end

section
/-!
PROOFS. Keys and timers (spec/45_keys_timers.md R210 to R217): the skips on a key's state, the wait for a key, and the copies between VX and the timers.
-/

namespace Sys2Proof.Machine

/-! Key skips. -/

/-- The skip on the state of the key that VX names (spec/45_keys_timers.md R211, R212). -/
theorem skipOnKey_of_key {x : Reg} {k : Key} {s : State} (pressed : Bool) (h : (s.readV x).toNat = k.val) :
    ∃ t, skipOnKey params x pressed s = .next t ∧ Frame [.pc] s t ∧
      (s.keyDown k = pressed → t.pc = s.pc + 4) ∧ (s.keyDown k = !pressed → t.pc = s.pc + 2) := by
  have hlt : (s.readV x).toNat < 16 := h ▸ k.isLt
  obtain rfl : k = ⟨(s.readV x).toNat, hlt⟩ := Fin.ext h.symm
  refine ⟨_, skipOnKey_of_lt pressed hlt, frame_skipIf s _, fun hk => ?_, fun hk => ?_⟩
  · exact skipIf_pc_of_true s (beq_iff_eq.2 hk)
  · exact skipIf_pc_of_false s (hk ▸ Bool.not_beq_self pressed)

/-- Settles O42: EX9E skips on the key pressed, EXA1 on the key not pressed (the name `skipOnKey` is the model's own operation). -/
theorem skipOnKeyState : Obligations.SkipOnKey := fun _ _ _ h =>
  ⟨skipOnKey_of_key true h, skipOnKey_of_key false h⟩

/-- Settles O43: VX above 15 names no key. -/
theorem keyIndexOutOfRangeFaults : Obligations.KeyIndexOutOfRangeFaults :=
  fun x s h => ⟨exec_skp_fault x s h, exec_sknp_fault x s h⟩

/-! The wait for a key. -/

/-- A key's index fits in a byte. -/
theorem toNat_keyByte (k : Key) : (keyByte k).toNat = k.val :=
  (BitVec.toNat_ofNat _ _).trans (Nat.mod_eq_of_lt (by omega))

/-- Settles O44: the key picked is a pressed one, and its index is a result in VX after the counted draw. -/
theorem keyWait : Obligations.KeyWait := by
  refine ⟨fun _ => decode_of_regRow 0xF 0x0 0xA fun _ => rfl, fun x s => ⟨exec_waitk_none x s, fun hpressed => ?_⟩⟩
  obtain ⟨k, hk, hexec⟩ := exec_waitk_some x s hpressed
  obtain ⟨hpc, hregs, -⟩ := result_frame s.countDraw x (keyByte k)
  refine ⟨_, k, hexec, hk, ?_, hpc, hregs, (frame_of_result s _ _ _).mono (by decide)⟩
  rw [readV_result, toNat_keyByte]

/-! Timer transfers. -/

/-- The writes of a timer instruction (spec/45_keys_timers.md R216, R217). -/
theorem frame_of_timers (s : State) (DT ST : Byte) (pc : Word) :
    Frame [.DT, .ST, .pc] s { s with DT := DT, ST := ST, pc := pc } := by
  intro e he
  cases e with
  | DT | ST | pc => exact absurd he (by decide)
  | mem | V | stack | key => exact fun _ => rfl
  | fb => exact fun _ _ => rfl
  | I | sp | redraw | fault | tone | started | draws => exact Eq.refl _

theorem frame_advance_setST (s : State) (v : Byte) : Frame [.ST, .pc] s (s.setST v).advance :=
  (frame_of_timers s s.DT v _).tail rfl

theorem frame_advance_setDT (s : State) (v : Byte) : Frame [.DT, .pc] s (s.setDT v).advance :=
  ((frame_of_timers s v s.ST _).mono (l' := [.ST, .DT, .pc]) (by decide)).tail rfl

/-- Settles O45: FX07 is a result in VX, FX15 and FX18 each write their one timer. -/
theorem timerTransfers : Obligations.TimerTransfers :=
  ⟨fun _ => ⟨decode_of_regRow 0xF 0x0 0x7 fun _ => rfl, decode_of_regRow 0xF 0x1 0x5 fun _ => rfl,
    decode_of_regRow 0xF 0x1 0x8 fun _ => rfl⟩, fun x s =>
    ⟨⟨_, exec_lddt x s, readV_result s x s.DT, result_frame s x s.DT⟩,
      ⟨_, exec_stdt x s, rfl, rfl, frame_advance_setDT s _⟩, ⟨_, exec_stst x s, rfl, rfl, frame_advance_setST s _⟩⟩⟩

end Sys2Proof.Machine
end

section
/-!
PROOFS. Exceptions and the host's operations (spec/60_exceptions.md): which steps raise a fatal condition, the two of the stack, and what `tick_timers`, `set_key` and `clear_redraw` write.
-/

namespace Sys2Proof.Machine

/-! Fatal conditions. -/

/-- What R286 asks at an instruction does not read `started`. -/
theorem instrSafe_markStarted (s : State) (i : Instr) : InstrSafe s.markStarted i ↔ InstrSafe s i := by
  cases i with
  | _ => exact Iff.rfl

theorem fault_eq_none_iff_of_exec {i : Instr} {s t : State} (hs : s.fault = none) (h : exec i s = .next t) :
    t.fault = none ↔ InstrSafe s i := by
  rcases exec_safeOrFaults i s with ⟨hsafe, u, hu, hk⟩ | ⟨hunsafe, f, hf, -⟩
  · cases h.symm.trans hu
    exact iff_of_true (hk.trans hs) hsafe
  · cases h.symm.trans hf
    exact iff_of_false (Option.some_ne_none f) hunsafe

/-- Settles O15: the step past the fetch bound breaks (c), the unrecognised word breaks nothing, and an instruction raises a condition exactly where it is not safe. -/
theorem stepFaultsExactlyWhenUnsafe : Obligations.StepFaultsExactlyWhenUnsafe := by
  intro s t hs h
  rcases step_cases s with ⟨hs', -⟩ | ⟨-, hb, e⟩ | ⟨-, hb, hd, e⟩ | ⟨i, -, hb, hd, e⟩
  · exact absurd hs hs'
  · cases h.symm.trans e
    refine iff_of_false (Option.some_ne_none _) fun ⟨hpc, _⟩ => ?_
    omega
  · cases h.symm.trans e
    refine iff_of_true hs ⟨Nat.le_of_succ_le_succ hb, fun i hi => ?_⟩
    cases hd.symm.trans hi
  · have hexec : t.fault = none ↔ InstrSafe s.markStarted i := fault_eq_none_iff_of_exec hs (e.symm.trans h)
    rw [hexec, instrSafe_markStarted]
    refine ⟨fun hsafe => ⟨Nat.le_of_succ_le_succ hb, fun j hj => ?_⟩, fun ⟨_, hsafe⟩ => hsafe i hd⟩
    cases hd.symm.trans hj
    exact hsafe

/-- Settles O20: the failing stack check of each. -/
theorem stackFaults : Obligations.StackFaults := fun s =>
  ⟨fun nnn => exec_call_fault nnn s, exec_ret_fault s⟩

/-! The host's operations. -/

/-- A frame without those of its elements that hold the same. -/
theorem Frame.of_kept {l kept l' : List Elem} {s t : State} (h : Frame l s t) (hk : kept.Forall (SameElem s t))
    (hl : l ⊆ kept ++ l') : Frame l' s t := by
  intro e he
  by_cases hm : e ∈ kept
  · exact List.forall_iff_forall_mem.1 hk e hm
  · exact h e fun hel => (List.mem_append.1 (hl hel)).elim hm he

theorem frame_tickTimers (s : State) : Frame [.tone, .DT, .ST] s s.tickTimers :=
  (frame_of_update s s.mem _ _ s.key s.redraw _).of_kept (kept := [.mem, .key, .redraw])
    ⟨fun _ => rfl, fun _ => rfl, rfl⟩ (by decide)

theorem frame_setKey (s : State) (k : Key) (b : Bool) : Frame [.key] s (s.setKey k b) :=
  (frame_of_update s s.mem s.DT s.ST _ s.redraw s.tone).of_kept (kept := [.mem, .DT, .ST, .redraw, .tone])
    ⟨fun _ => rfl, rfl, rfl, rfl, rfl⟩ (by decide)

theorem frame_clearRedraw (s : State) : Frame [.redraw] s s.clearRedraw :=
  (frame_of_update s s.mem s.DT s.ST s.key _ s.tone).of_kept (kept := [.mem, .DT, .ST, .key, .tone])
    ⟨fun _ => rfl, rfl, rfl, fun _ => rfl, rfl⟩ (by decide)

/-- A timer above 0 falls by 1, and one at 0 stays (spec/60_exceptions.md R244): the truncated difference. -/
theorem toNat_countDown (v : Byte) : (if 0 < v.toNat then v - 1 else v).toNat = v.toNat - 1 := by
  split
  next h => exact BitVec.toNat_sub_of_le (BitVec.le_def.2 h)
  next h => omega

theorem toNat_tickTimers_DT (s : State) : s.tickTimers.DT.toNat = s.DT.toNat - 1 := toNat_countDown s.DT

theorem toNat_tickTimers_ST (s : State) : s.tickTimers.ST.toNat = s.ST.toNat - 1 := toNat_countDown s.ST

/-- Settles O46: `tone` is read off ST before the count, and both timers count down. -/
theorem tickCountsDown : Obligations.TickCountsDown := fun s =>
  ⟨s.tickTimers, rfl, decide_eq_true_iff, toNat_tickTimers_DT s, toNat_tickTimers_ST s, frame_tickTimers s⟩

/-- Settles O47: each operation writes its one element. -/
theorem setKeyAndClearRedraw : Obligations.SetKeyAndClearRedraw := fun s k b =>
  ⟨⟨s.clearRedraw, rfl, rfl, frame_clearRedraw s⟩,
    s.setKey k b, rfl, by simp, fun j hj => by simp [hj], frame_setKey s k b⟩

end Sys2Proof.Machine
end

section
/-!
PROOFS. The delay timer over a run (spec/60_exceptions.md R244): it counts the ticks.
-/

namespace Sys2Proof.Machine

theorem runOps_cons_next {op : HostOp} {ops : List HostOp} {s t : State} (h : runOps (op :: ops) s = .next t) :
    ∃ u, operate op s = .next u ∧ runOps ops u = .next t := by
  rw [runOps] at h
  cases ho : operate op s with
  | next u =>
    rw [ho] at h
    exact ⟨u, rfl, h⟩
  | fault f => rw [ho] at h; cases h
  | refused r => rw [ho] at h; cases h

theorem tickCount_cons (op : HostOp) (ops : List HostOp) : tickCount (op :: ops) = tickCount [op] + tickCount ops := by
  rw [← List.singleton_append, tickCount, List.countP_append]
  rfl

theorem loadProgram_DT (s : State) (bytes : List Byte) : (s.loadProgram bytes).DT = s.DT := by
  rcases loadProgram_cases s bytes with ⟨-, e⟩ | ⟨-, e⟩ <;> rw [e]

/-- A step that executes no FX15 leaves DT. -/
theorem step_DT {s t : State} (hx : ∀ x, ¬ Executes s (.stdt x)) (h : step s = .next t) : t.DT = s.DT := by
  obtain ⟨-, -, -, hDT, -⟩ := stepLeavesHostElements s t h
  exact hDT.resolve_right fun ⟨x, hstdt⟩ => hx x hstdt

/-- One operation, neither a reset nor an executed FX15, takes from DT what it ticks. -/
theorem operate_DT {op : HostOp} {s t : State} (hop : op.isReset = false)
    (hx : op = .step → ∀ x, ¬ Executes s (.stdt x)) (h : operate op s = .next t) :
    t.DT.toNat = s.DT.toNat - tickCount [op] := by
  cases op with
  | reset => cases hop
  | load bytes =>
    obtain ⟨-, rfl⟩ := loadOp_next h
    exact congrArg _ (loadProgram_DT s bytes)
  | step => exact congrArg _ (step_DT (hx rfl) h)
  | tickTimers => cases h; exact toNat_tickTimers_DT s
  | setKey k b => cases h; rfl
  | clearRedraw => cases h; rfl

/-- Settles O54, by induction over the run: each operation takes from DT what it ticks, and the truncated differences add up. -/
theorem delayTimerCountsTicks : Obligations.DelayTimerCountsTicks := by
  intro ops
  induction ops with
  | nil =>
    rintro s t - h
    cases h
    rfl
  | cons op ops ih =>
    rintro s t ⟨hop, hx, hrest⟩ h
    obtain ⟨u, hu, hrun⟩ := runOps_cons_next h
    calc t.DT.toNat
      _ = u.DT.toNat - tickCount ops := ih u t (hrest u hu) hrun
      _ = s.DT.toNat - tickCount [op] - tickCount ops := by rw [operate_DT hop hx hu]
      _ = s.DT.toNat - tickCount (op :: ops) := by rw [Nat.sub_sub, ← tickCount_cons]

end Sys2Proof.Machine
end

section
/-!
PROOFS. The settings that are not the default (spec/92_eei_decisions.md D11, D12, D13): what the shifts of VY leave in VX and VF, and what a block transfer inside memory leaves in I.
-/

namespace Sys2Proof.Machine

/-! Shifts of VY, the flag written last. -/

section ShiftOfVy

variable {p : Config.Params} (x y : Reg) (s : State)

theorem finishResultFlag_of_flagLast (hlast : p.vfOrder = .flagLast) (v : Byte) (f : Bool) :
    finishResultFlag p x v f s = .next ((s.writeV x v).writeFlag f).advance := by
  rw [finishResultFlag, State.writeResultFlag, hlast]

theorem shiftOperand_of_vy (hvy : p.shiftSource = .vy) : shiftOperand p s x y = s.readV y := by
  rw [shiftOperand, hvy]

theorem execShrWith_of_vy (hlast : p.vfOrder = .flagLast) (hvy : p.shiftSource = .vy) :
    execShrWith p x y s = .next ((s.writeV x (s.readV y >>> 1)).writeFlag (lowBit (s.readV y))).advance := by
  rw [execShrWith, shiftOperand_of_vy x y s hvy, finishResultFlag_of_flagLast x s hlast]

theorem execShlWith_of_vy (hlast : p.vfOrder = .flagLast) (hvy : p.shiftSource = .vy) :
    execShlWith p x y s = .next ((s.writeV x (s.readV y <<< 1)).writeFlag (highBit (s.readV y))).advance := by
  rw [execShlWith, shiftOperand_of_vy x y s hvy, finishResultFlag_of_flagLast x s hlast]

end ShiftOfVy

/-! Block transfers that move I. -/

section BlockTransfer

variable (p : Config.Params) {x : Reg} {s : State}

/-- Under every setting an access inside memory passes the data bound check. -/
theorem dataOutOfBounds_of_inside {count : Nat} (h : s.I.toNat + count ≤ 4096) :
    dataOutOfBounds p s count = false := by
  have hlast : ¬ 0x0FFF < s.I.toNat + count - 1 := by omega
  rw [dataOutOfBounds, decide_eq_false hlast, Bool.and_false]

theorem execStmWith_of_inside (h : s.I.toNat + x.val ≤ 0x0FFF) :
    execStmWith p x s =
      .next ((s.storeBytes p (blockOfRegs s x)).setI (indexAfterBlock p s.I x)).advance := by
  rw [execStmWith, dataOutOfBounds_of_inside p (Nat.succ_le_succ h), if_neg Bool.false_ne_true]

theorem execLdmWith_of_inside (h : s.I.toNat + x.val ≤ 0x0FFF) :
    execLdmWith p x s = .next ((s.loadRegs p x).setI (indexAfterBlock p s.I x)).advance := by
  rw [execLdmWith, dataOutOfBounds_of_inside p (Nat.succ_le_succ h), if_neg Bool.false_ne_true]

/-- The address behind a block inside memory does not wrap. -/
theorem toNat_indexAfterBlock_of_incI {p : Config.Params} {i : Word} (hinc : p.blockIncI = true)
    (h : i.toNat + x.val ≤ 0x0FFF) : (indexAfterBlock p i x).toNat = i.toNat + x.val + 1 := by
  rw [indexAfterBlock, if_pos hinc, BitVec.toNat_add, BitVec.toNat_ofNat]
  omega

end BlockTransfer

/-- Settles O30: the shifts are a result in VX and a flag in VF, both of VY, and a transfer inside memory moves I behind its block. -/
theorem otherParameterSettings : Obligations.OtherParameterSettings := by
  refine fun x y s => ⟨⟨_, execShrWith_of_vy x y s rfl rfl, fun hx => ?_, ?_⟩,
    ⟨_, execShlWith_of_vy x y s rfl rfl, fun hx => ?_, ?_⟩,
    fun hin => ⟨⟨_, execStmWith_of_inside _ hin, toNat_indexAfterBlock_of_incI rfl hin⟩,
      ⟨_, execLdmWith_of_inside _ hin, toNat_indexAfterBlock_of_incI rfl hin⟩⟩⟩
  · rw [readV_resultFlag s _ _ hx, toNat_byte_ushiftRight_one]
  · rw [readV_vf_resultFlag, toNat_flagByte_lowBit]
  · rw [readV_resultFlag s _ _ hx, toNat_byte_shiftLeft_one]
  · rw [readV_vf_resultFlag, toNat_flagByte_highBit]

end Sys2Proof.Machine
end
